-- ==== Sys2Proof/Word.lean ====
section
/-! DEFINITION. The word types of the Hawk floating-point coprocessor's model and nothing else. -/

namespace Sys2Proof

/-- One byte of memory. -/
abbrev Byte := BitVec 8

/-- One instruction word `I[15:0]` (30_encoding.md R40). -/
abbrev InstrWord := BitVec 16

/-- A CPU register, COSTAT, FPLOW, the program counter, every transfer over the interface (20_memory.md R33). -/
abbrev Word := BitVec 32

/-- A bit pattern of the short format, "b32" (40_numerics.md R60, R61). -/
abbrev B32 := BitVec 32

/-- A bit pattern of the long format, "b64", which is also what an accumulator holds (40_numerics.md R60, R62). -/
abbrev B64 := BitVec 64

/-- The number of a CPU register in an instruction, `I[3:0]` (30_encoding.md R41, R42). -/
abbrev RegNum := BitVec 4

/-- A coprocessor register number, `I[11:8]` = op :: fr (10_state.md R19). -/
abbrev CopNum := BitVec 4

end Sys2Proof
end

