-- ==== Sys2Proof/Config.lean ====
section
/-! DEFINITION. What the spec leaves to the implementation: its open parameters (plain data, carried in the state), and the
free values, opaque constants that no proof can see into (00_scope.md R5, R7; notes/assumptions/4.md, 5.md, 6.md). -/

namespace Sys2Proof.Config

/-- The values of `ROUND_MODE` (40_numerics.md R66): the one the spec takes, and the other rounding directions of IEEE 754,
which the spec leaves open without listing them (PRESUMED: notes/assumptions/7.md). -/
inductive RoundMode where
  /-- to nearest, ties to the even mantissa: the spec's value (R66, D3) -/
  | nearestEven
  /-- to nearest, ties to the larger magnitude -/
  | nearestAway
  /-- cut off, which 91_not_in_source.md N8 names as a possibility -/
  | towardZero
  | towardPositive
  | towardNegative
deriving DecidableEq, Repr

/-- Round to nearest: the modes of which 40_numerics.md R67 says what a sum of zero is. -/
def RoundMode.isNearest : RoundMode → Bool
  | .nearestEven | .nearestAway => true
  | .towardZero | .towardPositive | .towardNegative => false

/-- The parameters of 00_scope.md R5 that stay open, each with the default the spec gives it. They are carried in the state
and no step changes them, so a statement about every state is a statement about every value of them
(DESIGN CHOICE, safe: notes/assumptions/4.md). -/
structure Params where
  /-- Storage bits of COSTAT beside `0x00001702`, which are always storage; together they are `COSTAT_IMPL_MASK`, whose
  default is `0x0000F7FF` (10_state.md R13, D14). -/
  costatExtraBits : Word := 0x0000F7FF#32
  /-- `COSTAT_RESET` (10_state.md R25, D17). -/
  costatReset : Word := 0x00000000#32
  /-- `ROUND_MODE` (40_numerics.md R66, D3). -/
  roundMode : RoundMode := .nearestEven
  /-- `SHORT_ROUNDS_ACCUMULATOR` (40_numerics.md R75, D2). -/
  shortRoundsAccumulator : Bool := false
  /-- `FPLOW_PRESERVED_BY_COSET` (41_register_access.md R85, D10). -/
  fplowPreservedByCoset : Bool := true
  /-- `FPU_STATE_SURVIVES_DISABLE` (10_state.md R26, D13). -/
  fpuStateSurvivesDisable : Bool := false
deriving DecidableEq, Repr

/-- Which rule asked for a NaN, with that rule's operands: the arguments of `nan_result` (00_scope.md R5, 40_numerics.md R74). -/
inductive NanOrigin where
  | widen (x : B32)
  | narrow (y : B64)
  | fadd (a b : B64)
  | fsub (a b : B64)
  | fmul (a b : B64)
  | fdiv (a b : B64)
  | fsqrt (b : B64)
  /-- a NaN result rounded to short and widened again (R75 with `SHORT_ROUNDS_ACCUMULATOR`) -/
  | shortRounding (y : B64)
deriving DecidableEq, Repr

/-! Free values. Each is applied to the state's counter of completed instructions, so that it is fresh at each use (R7).
UNVERIFIED by any source, and safe: nothing constrains them (notes/assumptions/5.md). -/

/-- The value left in FPLOW where a rule says `FPLOW <- any32()` (10_state.md R15, R26). -/
opaque freeFplow : Nat → Word

/-- The word that COGET of FPLOW delivers in short mode (10_state.md R15 (a), 41_register_access.md R82). -/
opaque freeFplowRead : Nat → Word

/-- FPA0 after the unit is disabled (10_state.md R26 (b)). -/
opaque freeFpa0 : Nat → B64

/-- FPA1 after the unit is disabled (10_state.md R26 (b)). -/
opaque freeFpa1 : Nat → B64

/-- N where a rule says `any1()` (10_state.md R21). -/
opaque freeN : Nat → Bool

/-- Z where a rule says `any1()` (10_state.md R21). -/
opaque freeZ : Nat → Bool

/-- V where a rule says `any1()` (10_state.md R21). -/
opaque freeV : Nat → Bool

/-- C where a rule says `any1()` (10_state.md R21). -/
opaque freeC : Nat → Bool

/-- The sign of a NaN result (40_numerics.md R74). -/
opaque nanSign : Nat → NanOrigin → Bool

/-- The mantissa of a long NaN result, less one: every non-zero 52-bit mantissa is one of these plus one (40_numerics.md R74). -/
opaque nanMantissa64 : Nat → NanOrigin → Fin 0xFFFFFFFFFFFFF

/-- The sign of a sum that is zero, where `ROUND_MODE` is not round to nearest: 40_numerics.md R67 states it for round to
nearest alone (notes/assumptions/7.md). -/
opaque zeroSumSign : Nat → B64 → B64 → Bool

/-- The mantissa of a short NaN result, less one: every non-zero 23-bit mantissa is one of these plus one (40_numerics.md R74). -/
opaque nanMantissa32 : Nat → NanOrigin → Fin 0x7FFFFF

end Sys2Proof.Config
end

