-- ==== Sys2Proof/Machine/Numerics.lean ====
section
/-! DEFINITION. The pure functions of 40_numerics.md: the two formats, `widen`, `narrow`, rounding, the arithmetic, integer
conversion, NaN results.

Exact values are natural numbers and integers, counted in a unit so small that every number of the format is a multiple of
it: 2^(-1074) for the long format, 2^(-149) for the short one. Sums, products and quotients of exact values are then exact
too, and only `roundMagnitude` rounds, in the direction of `ROUND_MODE`, the argument `m` (notes/assumptions/7.md). The IEEE
biases and special cases are the spec's general knowledge (PRESUMED, unsafe: notes/assumptions/8.md). -/

namespace Sys2Proof.Machine

open Config (RoundMode)

/-! ### The long format (R62, R63) -/

/-- The exponent field `exp[10:0]`, bits 62:52 (R62). -/
def exponent64 (y : B64) : BitVec 11 := y.extractLsb' 52 11

/-- The mantissa `mantissa[51:0]`, bits 51:0 (R62). -/
def mantissa64 (y : B64) : BitVec 52 := y.extractLsb' 0 52

/-- The sign `s`, bit 63 (R62). -/
def sign64 (y : B64) : Bool := y.msb

/-- An all-ones exponent and a non-zero mantissa (R62). -/
def isNaN64 (y : B64) : Bool := exponent64 y == 0x7FF#11 && mantissa64 y != 0#52

/-- An all-ones exponent and a zero mantissa (R62). -/
def isInf64 (y : B64) : Bool := exponent64 y == 0x7FF#11 && mantissa64 y == 0#52

/-- Either zero (R62, R63). -/
def isZero64 (y : B64) : Bool := exponent64 y == 0#11 && mantissa64 y == 0#52

/-- Neither an infinity nor a NaN (R62). -/
def isFinite64 (y : B64) : Bool := exponent64 y != 0x7FF#11

/-- An un-normalized number: a zero exponent, a non-zero mantissa (R62, R63). -/
def isUnnormalized64 (y : B64) : Bool := exponent64 y == 0#11 && mantissa64 y != 0#52

/-- A normal number (R62, R63). -/
def isNormal64 (y : B64) : Bool := exponent64 y != 0#11 && exponent64 y != 0x7FF#11

/-- The significand with its hidden bit, which is 0 where the exponent field is zero (10_state.md R16, R62). -/
def significand64 (y : B64) : Nat :=
  if exponent64 y = 0#11 then (mantissa64 y).toNat else 2 ^ 52 + (mantissa64 y).toNat

/-- The power of two, in units of 2^(-1074), that the significand is scaled by: `e - 1`, and 0 for a zero exponent field
(R62). -/
def scale64 (y : B64) : Nat := (exponent64 y).toNat - 1

/-- The magnitude of a finite long number, in units of 2^(-1074) (R62). -/
def magnitude64 (y : B64) : Nat := significand64 y * 2 ^ scale64 y

/-- The value of a finite long number, in units of 2^(-1074) (R62). -/
def value64 (y : B64) : Int :=
  if sign64 y then -(magnitude64 y : Int) else (magnitude64 y : Int)

/-- The long pattern with sign `s` and the 63 bits below it as a number. -/
def pack64 (s : Bool) (bits : Nat) : B64 := BitVec.ofBool s ++ BitVec.ofNat 63 bits

/-- The infinity of sign `s` (R62). -/
def infinity64 (s : Bool) : B64 := BitVec.ofBool s ++ 0x7FF#11 ++ 0#52

/-- The zero of sign `s` (R62). -/
def zero64 (s : Bool) : B64 := BitVec.ofBool s ++ 0#11 ++ 0#52

/-! ### The short format (R61, R63) -/

/-- The exponent field, bits 30:23 (R61). -/
def exponent32 (x : B32) : BitVec 8 := x.extractLsb' 23 8

/-- The mantissa, bits 22:0 (R61). -/
def mantissa32 (x : B32) : BitVec 23 := x.extractLsb' 0 23

/-- The sign, bit 31 (R61). -/
def sign32 (x : B32) : Bool := x.msb

/-- An all-ones exponent and a non-zero mantissa (R61). -/
def isNaN32 (x : B32) : Bool := exponent32 x == 0xFF#8 && mantissa32 x != 0#23

/-- Neither an infinity nor a NaN (R61). -/
def isFinite32 (x : B32) : Bool := exponent32 x != 0xFF#8

/-- The magnitude of a finite short number, in units of 2^(-149) (R61). -/
def magnitude32 (x : B32) : Nat :=
  if exponent32 x = 0#8 then (mantissa32 x).toNat
  else (2 ^ 23 + (mantissa32 x).toNat) * 2 ^ ((exponent32 x).toNat - 1)

/-- The value of a finite short number, in units of 2^(-149) (R61). -/
def value32 (x : B32) : Int :=
  if sign32 x then -(magnitude32 x : Int) else (magnitude32 x : Int)

/-- The short pattern with sign `s` and the 31 bits below it as a number. -/
def pack32 (s : Bool) (bits : Nat) : B32 := BitVec.ofBool s ++ BitVec.ofNat 31 bits

/-- The infinity of sign `s` (R61). -/
def infinity32 (s : Bool) : B32 := BitVec.ofBool s ++ 0xFF#8 ++ 0#23

/-! ### NaN results (R74): an all-ones exponent, a non-zero mantissa, everything else free (UNVERIFIED, safe:
notes/assumptions/6.md) -/

/-- `nan_result` as a long pattern (R74); `t` is the state's counter. -/
def nanResult64 (t : Nat) (o : Config.NanOrigin) : B64 :=
  BitVec.ofBool (Config.nanSign t o) ++ 0x7FF#11 ++ BitVec.ofNat 52 ((Config.nanMantissa64 t o).val + 1)

/-- `nan_result` as a short pattern (R74); `t` is the state's counter. -/
def nanResult32 (t : Nat) (o : Config.NanOrigin) : B32 :=
  BitVec.ofBool (Config.nanSign t o) ++ 0xFF#8 ++ BitVec.ofNat 23 ((Config.nanMantissa32 t o).val + 1)

/-! ### Rounding (R66) -/

/-- The natural number nearest to `n / d`, the even one of the two when both are equally near (R66). -/
def roundHalfEven (n d : Nat) : Nat :=
  if 2 * (n % d) < d then n / d
  else if d < 2 * (n % d) then n / d + 1
  else n / d + n / d % 2

/-- The natural number nearest to `n / d`, the larger of the two when both are equally near (notes/assumptions/7.md). -/
def roundHalfAway (n d : Nat) : Nat := (2 * n + d) / (2 * d)

/-- The least natural number that is at least `n / d` (notes/assumptions/7.md). -/
def roundUp (n d : Nat) : Nat := (n + d - 1) / d

/-- `n / d`, the magnitude of a number of the given sign, rounded to a natural number by `ROUND_MODE` (R66). -/
def roundWhole (m : RoundMode) (negative : Bool) (n d : Nat) : Nat :=
  match m with
  | .nearestEven => roundHalfEven n d
  | .nearestAway => roundHalfAway n d
  | .towardZero => n / d
  | .towardPositive => if negative then n / d else roundUp n d
  | .towardNegative => if negative then roundUp n d else n / d

/-- The exponent and mantissa fields, as one number, of `n / d` units rounded by `ROUND_MODE` (R65, R66, R67). The format has
`mBits` mantissa bits and `eBits` exponent bits, and its unit is its smallest un-normalized number. The result is rounded to
`mBits + 1` significant bits, or to a whole number of units where `n / d` has fewer: `q` is the power of two it is rounded to.
Rounding up into the next binade carries into the exponent field, and a rounded magnitude beyond the largest number is the
infinity in every mode (R65, R67). -/
def roundMagnitude (m : RoundMode) (negative : Bool) (mBits eBits n d : Nat) : Nat :=
  let q := Nat.log2 (n / d) - mBits
  min (q * 2 ^ mBits + roundWhole m negative n (d * 2 ^ q)) ((2 ^ eBits - 1) * 2 ^ mBits)

/-- The long number of sign `s` that `n / d` units of 2^(-1074) are rounded to (R66, R67). -/
def round64 (m : RoundMode) (s : Bool) (n d : Nat) : B64 := pack64 s (roundMagnitude m s 52 11 n d)

/-- The short number of sign `s` that `n / d` units of 2^(-149) are rounded to (R65, R66). -/
def round32 (m : RoundMode) (s : Bool) (n d : Nat) : B32 := pack32 s (roundMagnitude m s 23 8 n d)

/-! ### Moving operands across the interface (R64, R65, R75) -/

/-- `widen` (R64): the long number with exactly the value of a short one. -/
def widen (t : Nat) (x : B32) : B64 :=
  let s := sign32 x
  let e := exponent32 x
  let m := mantissa32 x
  if e = 0xFF#8 ∧ m ≠ 0#23 then nanResult64 t (.widen x)
  else if e = 0xFF#8 then infinity64 s
  else if e = 0#8 ∧ m = 0#23 then zero64 s
  else if e = 0#8 then
    let k := Nat.log2 m.toNat
    BitVec.ofBool s ++ BitVec.ofNat 11 (k + 874) ++ BitVec.ofNat 52 (m.toNat <<< (52 - k))
  else BitVec.ofBool s ++ BitVec.ofNat 11 (e.toNat + 896) ++ (m ++ 0#29)

/-- `narrow` (R65): a long number rounded to short by `ROUND_MODE`, with the long one's sign. One short unit is 2^925 long
ones. -/
def narrow (m : RoundMode) (t : Nat) (y : B64) : B32 :=
  if isNaN64 y then nanResult32 t (.narrow y)
  else if isInf64 y then infinity32 (sign64 y)
  else round32 m (sign64 y) (magnitude64 y) (2 ^ 925)

/-- What a short-mode operation stores when `SHORT_ROUNDS_ACCUMULATOR` is true: `widen(narrow(result))` (R75; D2). -/
def shortRounded (m : RoundMode) (t : Nat) (y : B64) : B64 :=
  if isNaN64 y then nanResult64 t (.shortRounding y) else widen t (narrow m t y)

/-! ### Arithmetic (R67 to R71) -/

/-- A pattern with its sign bit inverted (R67, R90). -/
def negate64 (y : B64) : B64 := y ^^^ 0x8000000000000000#64

/-- A pattern with its sign bit cleared (R91). -/
def absolute64 (y : B64) : B64 := y &&& 0x7FFFFFFFFFFFFFFF#64

/-- A short pattern with bit 31 cleared (R91). -/
def absolute32 (x : B32) : B32 := x &&& 0x7FFFFFFF#32

/-- The sum of two numbers when it is zero (R67): of sign `s` in round to nearest; the spec states no sign for another
`ROUND_MODE`, and it is a free value (notes/assumptions/7.md). -/
def zeroSum (m : RoundMode) (t : Nat) (s : Bool) (a b : B64) : B64 :=
  zero64 (if m.isNearest then s else Config.zeroSumSign t a b)

/-- `fadd` (R67). -/
def fadd (m : RoundMode) (t : Nat) (a b : B64) : B64 :=
  if isNaN64 a ∨ isNaN64 b ∨ (isInf64 a ∧ isInf64 b ∧ sign64 a ≠ sign64 b) then nanResult64 t (.fadd a b)
  else if isInf64 a then a
  else if isInf64 b then b
  else if isZero64 a ∧ isZero64 b then zeroSum m t (sign64 a && sign64 b) a b
  else
    let sum := value64 a + value64 b
    if sum = 0 then zeroSum m t false a b else round64 m (decide (sum < 0)) sum.natAbs 1

/-- `fsub` (R67): the sum with the second operand's sign inverted, when that operand is not a NaN. -/
def fsub (m : RoundMode) (t : Nat) (a b : B64) : B64 :=
  if isNaN64 b then nanResult64 t (.fsub a b) else fadd m t a (negate64 b)

/-- `fmul` (R68). The exact product of two magnitudes is counted in units of 2^(-2148). -/
def fmul (m : RoundMode) (t : Nat) (a b : B64) : B64 :=
  let s := sign64 a ^^ sign64 b
  if isNaN64 a ∨ isNaN64 b ∨ (isZero64 a ∧ isInf64 b) ∨ (isInf64 a ∧ isZero64 b) then nanResult64 t (.fmul a b)
  else if isInf64 a ∨ isInf64 b then infinity64 s
  else if isZero64 a ∨ isZero64 b then zero64 s
  else round64 m s (magnitude64 a * magnitude64 b) (2 ^ 1074)

/-- `fdiv` (R69), `a` the dividend and `b` the divisor. -/
def fdiv (m : RoundMode) (t : Nat) (a b : B64) : B64 :=
  let s := sign64 a ^^ sign64 b
  if isNaN64 a ∨ isNaN64 b ∨ (isZero64 a ∧ isZero64 b) ∨ (isInf64 a ∧ isInf64 b) then nanResult64 t (.fdiv a b)
  else if isInf64 a then infinity64 s
  else if isInf64 b then zero64 s
  else if isZero64 b then infinity64 s
  else if isZero64 a then zero64 s
  else round64 m s (magnitude64 a * 2 ^ 1074) (magnitude64 b)

/-- The largest number whose square is at most `x`, for `x < 4 ^ n`. -/
def squareRoot : Nat → Nat → Nat
  | 0, _ => 0
  | n + 1, x =>
    let r := 2 * squareRoot n (x / 4)
    if (r + 1) * (r + 1) ≤ x then r + 1 else r

/-- `fsqrt` (R70). The operand is `significand × 2^scale` units of 2^(-1074), so its root is the root of
`significand × 2^(scale + 1074)` in the same unit. An even part `2^(2 × half)` of the power is taken out; the root of what is
left has at least 56 bits and lies between `r` and `r + 1`, on `r` exactly when `r * r` is the radicand. The fraction given to
`round64` lies on `r` or strictly between in the same way, which is all that rounding to a coarser step can tell. -/
def fsqrt (m : RoundMode) (t : Nat) (b : B64) : B64 :=
  if isNaN64 b ∨ (sign64 b ∧ ¬ isZero64 b) then nanResult64 t (.fsqrt b)
  else if isZero64 b then b
  else if isInf64 b then b
  else
    let kept := 110 + scale64 b % 2
    let half := (scale64 b + 1074 - kept) / 2
    let radicand := significand64 b * 2 ^ kept
    let r := squareRoot 82 radicand
    round64 m false ((if r * r = radicand then 2 * r else 2 * r + 1) * 2 ^ half) 2

/-- `i32_to_f64` and `i64_to_f64` (R71): an integer rounded to a long number by `ROUND_MODE`; zero gives `+0`. -/
def intToB64 (m : RoundMode) (n : Int) : B64 :=
  round64 m (decide (n < 0)) (n.natAbs * 2 ^ 1074) 1

end Sys2Proof.Machine
end

