-- ==== Sys2Proof/Machine/Params.lean ====
section
/-! DEFINITION. What the open parameters amount to (00_scope.md R5). -/

namespace Sys2Proof.Machine

/-- The bits of COSTAT that are storage under the parameters `p`: `COSTAT_IMPL_MASK`, which always contains `0x00001702`
(10_state.md R13; D14). -/
def costatImplMask (p : Config.Params) : Word :=
  p.costatExtraBits ||| 0x00001702#32

end Sys2Proof.Machine
end

