-- ==== Sys2Proof/Syntax.lean ====
section
/-! DEFINITION. The instructions: one constructor for each of the fifteen rows of spec/opcode_table.json. -/

namespace Sys2Proof

/-- The two accumulators, chosen by the instruction's `fr` bit (10_state.md R16, R19). -/
inductive Accumulator where
  | fpa0
  | fpa1
deriving DecidableEq, Repr

/-- COGET and COSET, a constructor for each coprocessor register number's meaning (30_encoding.md R45). `dst` is the CPU
register that receives, `src` the CPU register that sends, `k` the accumulator. -/
inductive Instr where
  /-- `COGET dst,COSTAT` (R80) -/
  | cogetCostat (dst : RegNum)
  /-- `COGET dst,FPLOW` (R82) -/
  | cogetFplow (dst : RegNum)
  /-- `COGET dst,FPAk` (R84) -/
  | cogetFpa (dst : RegNum) (k : Accumulator)
  /-- `COGET dst,FPAk+FPNEG` (R90) -/
  | cogetFpneg (dst : RegNum) (k : Accumulator)
  /-- `COGET dst,FPAk+FPABS` (R91) -/
  | cogetFpabs (dst : RegNum) (k : Accumulator)
  /-- COGET of coprocessor register numbers 8 to 15 (R48, R92) -/
  | cogetUndefined (dst : RegNum) (number : CopNum)
  /-- `COSET src,COSTAT` (R81) -/
  | cosetCostat (src : RegNum)
  /-- `COSET src,FPLOW` (R83) -/
  | cosetFplow (src : RegNum)
  /-- `COSET src,FPAk` (R85) -/
  | cosetFpa (src : RegNum) (k : Accumulator)
  /-- `COSET src,FPINT+FPAk` (R100) -/
  | cosetFpint (src : RegNum) (k : Accumulator)
  /-- `COSET src,FPSQRT+FPAk` (R101) -/
  | cosetFpsqrt (src : RegNum) (k : Accumulator)
  /-- `COSET src,FPADD+FPAk` (R102) -/
  | cosetFpadd (src : RegNum) (k : Accumulator)
  /-- `COSET src,FPSUB+FPAk` (R103) -/
  | cosetFpsub (src : RegNum) (k : Accumulator)
  /-- `COSET src,FPMUL+FPAk` (R104) -/
  | cosetFpmul (src : RegNum) (k : Accumulator)
  /-- `COSET src,FPDIV+FPAk` (R105) -/
  | cosetFpdiv (src : RegNum) (k : Accumulator)
deriving DecidableEq, Repr

end Sys2Proof
end

