-- ==== Sys2Proof/Machine/State.lean ====
section
/-! DEFINITION. The state of the machine, its faults and refusals, and the state after reset (10_state.md R10, R25). -/

namespace Sys2Proof.Machine

/-- The CPU's four condition codes (10_state.md R21). -/
structure CondCodes where
  n : Bool
  z : Bool
  v : Bool
  c : Bool
deriving DecidableEq, Repr

/-- Memory as address and byte pairs, addresses strictly rising. An address that is not listed has no value: nothing has
stored a byte there (DESIGN CHOICE, safe: notes/assumptions/21.md). -/
abbrev Memory := List Host.Cell

/-- Everything the spec gives the machine (10_state.md R10), the memory instructions are fetched from (41_register_access.md
R87), and two fields of the model's own: the open parameters and the counter behind the free values. -/
structure State where
  /-- r[0] to r[15]; slot 0 is never written and never read (R20) -/
  regs : Vector Word 16
  /-- N, Z, V, C (R21) -/
  cc : CondCodes
  /-- the program counter (R22) -/
  pc : Word
  /-- COSTAT, coprocessor register 0 (R11 to R13) -/
  costat : Word
  /-- FPLOW, coprocessor register 1 (R14, R15) -/
  fplow : Word
  /-- FPA[0], coprocessor register 2 (R16) -/
  fpa0 : B64
  /-- FPA[1], coprocessor register 3 (R16) -/
  fpa1 : B64
  /-- the bytes instructions are fetched from (20_memory.md R31, R32) -/
  mem : Memory
  /-- the MODEL's: the spec's open parameters, changed by no step (notes/assumptions/4.md) -/
  params : Config.Params
  /-- the MODEL's: how many instructions have completed, the argument of the free values (notes/assumptions/5.md) -/
  draws : Nat
deriving DecidableEq, Repr

/-- Where the machine stops. Every fault writes nothing and leaves `pc` where it was (60_exceptions.md R131). -/
inductive Fault where
  /-- Raised by COGET and COSET of coprocessor registers 1 to 15 while the unit is not enabled or not selected, with the
  instruction word and COSTAT (R86, R131; D11, D23). Safe: the hardware may trap, ignore or reach another coprocessor. -/
  | coprocessorUnavailable (word : InstrWord) (costat : Word)
  /-- Raised by COGET of coprocessor registers 8 to 15 with the unit available (R48, R92, R132; D12). Safe: the spec gives
  these no effect. -/
  | undefinedCoprocessorOperation (word : InstrWord) (costat : Word)
  /-- Raised by the fetch when bit 0 of `pc` is 1, which the spec leaves to the CPU (20_memory.md R35; D16). Safe. -/
  | misalignedFetch (pc : Word)
  /-- Raised by the fetch when nothing has stored a byte at `pc` or `pc + 1` (notes/assumptions/21.md). Safe. -/
  | unwrittenFetch (pc : Word)
deriving DecidableEq, Repr

/-- Inputs outside the model. -/
inductive Refusal where
  /-- Raised by an arm of `exec` whose instruction has no meaning yet; no arm is in this case. Safe. -/
  | notModelled (mnemonic : String)
  /-- Raised by the step when the word at `pc` is neither COGET nor COSET: it belongs to the CPU's instruction set, which no
  source describes (R44, R127, R137; D24). Safe. -/
  | notACoprocessorInstruction (word : InstrWord)
deriving DecidableEq, Repr

/-- The machine after reset under the parameters `p` (10_state.md R25). COSTAT is `COSTAT_RESET`; the spec gives no other
value, and every other register is zero (DESIGN CHOICE, unsafe: notes/assumptions/1.md, 2.md, 3.md). -/
def State.resetWith (p : Config.Params) : State where
  regs := Vector.replicate 16 0#32
  cc := ⟨false, false, false, false⟩
  pc := 0#32
  costat := p.costatReset &&& costatImplMask p
  fplow := 0#32
  fpa0 := 0#64
  fpa1 := 0#64
  mem := []
  params := p
  draws := 0

/-- The machine after reset, under the default parameters of 00_scope.md R5. -/
def State.reset : State :=
  State.resetWith {}

end Sys2Proof.Machine
end

