-- ==== Sys2Proof/Machine/Flags.lean ====
section
/-! DEFINITION. The condition codes (10_state.md R21, 40_numerics.md R72, R76). -/

namespace Sys2Proof.Machine

/-- `fp_cc(short, w, _)` (R72): N the sign, Z all 32 bits zero, V clear, C the eight exponent bits all ones
(DEDUCED, unsafe: notes/assumptions/10.md). -/
def fpCcShort (w : Word) : CondCodes where
  n := w.getLsbD 31
  z := w == 0#32
  v := false
  c := w.extractLsb' 23 8 == 0xFF#8

/-- `fp_cc(long, hi, lo)` (R72): N the sign, Z all 64 bits zero, V clear, C the eleven exponent bits all ones
(DEDUCED, unsafe: notes/assumptions/10.md). -/
def fpCcLong (hi lo : Word) : CondCodes where
  n := hi.getLsbD 31
  z := hi == 0#32 && lo == 0#32
  v := false
  c := hi.extractLsb' 20 11 == 0x7FF#11

/-- `(any1(), any1(), any1(), any1())`: the codes after COGET of FPLOW or COSTAT (R21, R80, R82). -/
def drawnCc (t : Nat) : CondCodes where
  n := Config.freeN t
  z := Config.freeZ t
  v := Config.freeV t
  c := Config.freeC t

/-- The condition BGT takes (44_cpu_instructions_in_examples.md R124; PRESUMED: notes/assumptions/29.md). The branch itself
is a CPU instruction outside the model. -/
def CondCodes.greater (cc : CondCodes) : Bool := !cc.z && cc.n == cc.v

/-- The condition BLE takes (44_cpu_instructions_in_examples.md R124; PRESUMED: notes/assumptions/29.md). -/
def CondCodes.lessOrEqual (cc : CondCodes) : Bool := cc.z || cc.n != cc.v

end Sys2Proof.Machine
end

