-- ==== Sys2Proof/WellFormed.lean ====
section
/-! DEFINITION. Which terms of `Instr` stand for an instruction. -/

namespace Sys2Proof

/-- The one check: the undefined COGET row has coprocessor register numbers 8 to 15, `I[11] = 1` (30_encoding.md R48). The
register fields and the accumulator fill their types exactly. -/
def Instr.wellFormed : Instr → Bool
  | .cogetCostat _ => true
  | .cogetFplow _ => true
  | .cogetFpa _ _ => true
  | .cogetFpneg _ _ => true
  | .cogetFpabs _ _ => true
  | .cogetUndefined _ number => number.msb
  | .cosetCostat _ => true
  | .cosetFplow _ => true
  | .cosetFpa _ _ => true
  | .cosetFpint _ _ => true
  | .cosetFpsqrt _ _ => true
  | .cosetFpadd _ _ => true
  | .cosetFpsub _ _ => true
  | .cosetFpmul _ _ => true
  | .cosetFpdiv _ _ => true

/-- The terms that stand for an instruction. -/
abbrev Instr.WellFormed (i : Instr) : Prop := i.wellFormed = true

end Sys2Proof
end

