-- ==== Sys2Proof/Decode.lean ====
section
/-! DEFINITION. Decoding of instruction words, total on any bytes and rejecting by name, and the encoder beside it
(30_encoding.md R40 to R48). -/

namespace Sys2Proof

/-- Why bytes are no instruction of the unit. -/
inductive DecodeError where
  /-- fewer than the two bytes an instruction has (30_encoding.md R40) -/
  | tooShort
  /-- the word is neither COGET nor COSET (30_encoding.md R44, 60_exceptions.md R137) -/
  | notACoprocessorInstruction (word : InstrWord)
deriving DecidableEq, Repr

/-- The accumulator the `fr` bit names (10_state.md R19). -/
def Accumulator.ofBit : Bool → Accumulator
  | false => .fpa0
  | true => .fpa1

/-- The `fr` bit of an accumulator (10_state.md R19). -/
def Accumulator.bit : Accumulator → BitVec 1
  | .fpa0 => 0#1
  | .fpa1 => 1#1

/-- COGET of each coprocessor register number, by `op` and `fr` (30_encoding.md R45). -/
def cogetOf (number : CopNum) (dst : RegNum) : Instr :=
  let fr := Accumulator.ofBit (number.getLsbD 0)
  match (number.extractLsb' 1 3).toNat with
  | 0 => if number.getLsbD 0 then .cogetFplow dst else .cogetCostat dst
  | 1 => .cogetFpa dst fr
  | 2 => .cogetFpneg dst fr
  | 3 => .cogetFpabs dst fr
  | _ => .cogetUndefined dst number

/-- COSET of each coprocessor register number, by `op` and `fr` (30_encoding.md R45). -/
def cosetOf (number : CopNum) (src : RegNum) : Instr :=
  let fr := Accumulator.ofBit (number.getLsbD 0)
  match (number.extractLsb' 1 3).toNat with
  | 0 => if number.getLsbD 0 then .cosetFplow src else .cosetCostat src
  | 1 => .cosetFpa src fr
  | 2 => .cosetFpint src fr
  | 3 => .cosetFpsqrt src fr
  | 4 => .cosetFpadd src fr
  | 5 => .cosetFpsub src fr
  | 6 => .cosetFpmul src fr
  | _ => .cosetFpdiv src fr

/-- Recognition of a word: `I[7:4] = 0001` and `I[15:12] = 0011` is COGET, `I[15:12] = 0010` COSET; `I[11:8]` is the
coprocessor register number and `I[3:0]` the CPU register (30_encoding.md R41, R42, R44). -/
def decodeWord (w : InstrWord) : Except DecodeError Instr :=
  let number : CopNum := w.extractLsb' 8 4
  let reg : RegNum := w.extractLsb' 0 4
  if w.extractLsb' 4 4 = 0b0001#4 ∧ w.extractLsb' 12 4 = 0b0011#4 then
    .ok (cogetOf number reg)
  else if w.extractLsb' 4 4 = 0b0001#4 ∧ w.extractLsb' 12 4 = 0b0010#4 then
    .ok (cosetOf number reg)
  else
    .error (.notACoprocessorInstruction w)

/-- Decoding of a byte stream: the byte at the lower address holds `I[7:0]` (30_encoding.md R40, 20_memory.md R32).
Answers the instruction and the bytes after it. -/
def decode : List Byte → Except DecodeError (Instr × List Byte)
  | low :: high :: rest =>
    match decodeWord (high ++ low) with
    | .ok i => .ok (i, rest)
    | .error e => .error e
  | _ => .error .tooShort

/-- The four bits `I[15:12]`: `0011` for COGET, `0010` for COSET (30_encoding.md R41, R42). -/
def Instr.format : Instr → BitVec 4
  | .cogetCostat _ | .cogetFplow _ | .cogetFpa _ _ | .cogetFpneg _ _ | .cogetFpabs _ _ | .cogetUndefined _ _ => 0b0011#4
  | .cosetCostat _ | .cosetFplow _ | .cosetFpa _ _ | .cosetFpint _ _ | .cosetFpsqrt _ _ | .cosetFpadd _ _
  | .cosetFpsub _ _ | .cosetFpmul _ _ | .cosetFpdiv _ _ => 0b0010#4

/-- The coprocessor register number, `op :: fr` (30_encoding.md R45). -/
def Instr.number : Instr → CopNum
  | .cogetCostat _ => 0#4
  | .cogetFplow _ => 1#4
  | .cogetFpa _ k => 0b001#3 ++ k.bit
  | .cogetFpneg _ k => 0b010#3 ++ k.bit
  | .cogetFpabs _ k => 0b011#3 ++ k.bit
  | .cogetUndefined _ number => number
  | .cosetCostat _ => 0#4
  | .cosetFplow _ => 1#4
  | .cosetFpa _ k => 0b001#3 ++ k.bit
  | .cosetFpint _ k => 0b010#3 ++ k.bit
  | .cosetFpsqrt _ k => 0b011#3 ++ k.bit
  | .cosetFpadd _ k => 0b100#3 ++ k.bit
  | .cosetFpsub _ k => 0b101#3 ++ k.bit
  | .cosetFpmul _ k => 0b110#3 ++ k.bit
  | .cosetFpdiv _ k => 0b111#3 ++ k.bit

/-- The CPU register, `I[3:0]` (30_encoding.md R41, R42). -/
def Instr.reg : Instr → RegNum
  | .cogetCostat r | .cogetFplow r | .cogetFpa r _ | .cogetFpneg r _ | .cogetFpabs r _ | .cogetUndefined r _
  | .cosetCostat r | .cosetFplow r | .cosetFpa r _ | .cosetFpint r _ | .cosetFpsqrt r _ | .cosetFpadd r _
  | .cosetFpsub r _ | .cosetFpmul r _ | .cosetFpdiv r _ => r

/-- The instruction word: `format :: number :: 0001 :: register` (30_encoding.md R41, R42). -/
def encode (i : Instr) : InstrWord :=
  i.format ++ i.number ++ 0b0001#4 ++ i.reg

/-- The bytes of an instruction in address order (30_encoding.md R40, 20_memory.md R32). -/
def encodeBytes (i : Instr) : List Byte :=
  [(encode i).extractLsb' 0 8, (encode i).extractLsb' 8 8]

/-- The first `n` bytes of a number, least significant byte first (20_memory.md R32). -/
def bytesOfNat : Nat → Nat → List Byte
  | 0, _ => []
  | n + 1, w => BitVec.ofNat 8 w :: bytesOfNat n (w / 256)

/-- The instruction the decoder reads from the word `w` of an opcode-table row of `nbits` bits; the bits above `nbits` are 0,
up to the 16 bits of the longest instruction. -/
def decodeTableWord (nbits w : Nat) : Option Instr :=
  match decode (bytesOfNat (max 2 (nbits / 8)) (w % 2 ^ nbits)) with
  | .ok (i, _) => some i
  | .error _ => none

/-- The `match` value of an instruction's row of spec/opcode_table.json. -/
def Instr.rowMatch : Instr → InstrWord
  | .cogetCostat _ => 0x3010#16
  | .cogetFplow _ => 0x3110#16
  | .cogetFpa _ _ => 0x3210#16
  | .cogetFpneg _ _ => 0x3410#16
  | .cogetFpabs _ _ => 0x3610#16
  | .cogetUndefined _ _ => 0x3810#16
  | .cosetCostat _ => 0x2010#16
  | .cosetFplow _ => 0x2110#16
  | .cosetFpa _ _ => 0x2210#16
  | .cosetFpint _ _ => 0x2410#16
  | .cosetFpsqrt _ _ => 0x2610#16
  | .cosetFpadd _ _ => 0x2810#16
  | .cosetFpsub _ _ => 0x2A10#16
  | .cosetFpmul _ _ => 0x2C10#16
  | .cosetFpdiv _ _ => 0x2E10#16

/-- The `mask` value of an instruction's row of spec/opcode_table.json. -/
def Instr.rowMask : Instr → InstrWord
  | .cogetCostat _ | .cogetFplow _ | .cosetCostat _ | .cosetFplow _ => 0xFFF0#16
  | .cogetUndefined _ _ => 0xF8F0#16
  | .cogetFpa _ _ | .cogetFpneg _ _ | .cogetFpabs _ _ | .cosetFpa _ _ | .cosetFpint _ _ | .cosetFpsqrt _ _
  | .cosetFpadd _ _ | .cosetFpsub _ _ | .cosetFpmul _ _ | .cosetFpdiv _ _ => 0xFEF0#16

end Sys2Proof
end

