-- ==== Sys2Proof/Machine/Ops.lean ====
section
/-! DEFINITION. The named operations over memory and registers that every meaning is written with (00_scope.md R7). -/

namespace Sys2Proof.Machine

/-! ### Memory (20_memory.md R31, R32; 00_scope.md R7 `MemRead`, `MemWrite`) -/

/-- The byte stored at an address, or none where nothing has stored one (notes/assumptions/21.md). -/
def Memory.read : Memory → Nat → Option Byte
  | [], _ => none
  | (b, v) :: rest, a => if a = b then some v else Memory.read rest a

/-- Storing a byte, in address order. -/
def Memory.write : Memory → Nat → Byte → Memory
  | [], a, v => [(a, v)]
  | (b, w) :: rest, a, v =>
    if a < b then (a, v) :: (b, w) :: rest
    else if a = b then (a, v) :: rest
    else (b, w) :: Memory.write rest a v

/-- The canonical form: addresses strictly rising and below 2^32. An unlisted address reads as no byte at all, so no entry
equals what an unlisted address reads as. -/
abbrev Memory.wf (m : Memory) : Prop :=
  (m.map Prod.fst).Pairwise (· < ·) ∧ ∀ c ∈ m, c.1 < 2 ^ 32

/-- `MemRead(addr, n)`: `n` bytes, the least significant at the lowest address (R7, R32). Bytes past `0xFFFFFFFF` go on at
address 0 (DESIGN CHOICE, unsafe: notes/assumptions/31.md). -/
def Memory.readLE (m : Memory) (a : Word) : Nat → Option Nat
  | 0 => some 0
  | n + 1 =>
    match Memory.read m a.toNat, Memory.readLE m (a + 1#32) n with
    | some b, some rest => some (b.toNat + 256 * rest)
    | _, _ => none

/-- `MemWrite(addr, n, v)`: the low `n` bytes of `v`, the least significant at the lowest address (R7, R32). Bytes past
`0xFFFFFFFF` go on at address 0 (DESIGN CHOICE, unsafe: notes/assumptions/31.md). -/
def Memory.writeLE (m : Memory) (a : Word) : Nat → Nat → Memory
  | 0, _ => m
  | n + 1, v => Memory.writeLE (Memory.write m a.toNat (BitVec.ofNat 8 v)) (a + 1#32) n (v / 256)

/-! ### CPU registers (10_state.md R20) -/

/-- `r[i]`: register 0 reads as zero (R7, R20; D20). -/
def State.readReg (s : State) (i : RegNum) : Word :=
  if i = 0#4 then 0#32 else s.regs[i.toNat]'(i.isLt)

/-- `r[i] <- v`: a write of register 0 is discarded (R7, R20; D20). -/
def State.writeReg (s : State) (i : RegNum) (v : Word) : State :=
  if i = 0#4 then s else { s with regs := s.regs.set i.toNat v i.isLt }

/-! ### The accumulators (10_state.md R16, R18) -/

/-- `FPA[k]` (R7). -/
def State.fpa (s : State) : Accumulator → B64
  | .fpa0 => s.fpa0
  | .fpa1 => s.fpa1

/-- `FPA[k] <- y` (R7). -/
def State.setFpa (s : State) (k : Accumulator) (y : B64) : State :=
  match k with
  | .fpa0 => { s with fpa0 := y }
  | .fpa1 => { s with fpa1 := y }

/-! ### COSTAT (10_state.md R11, R13, R26) -/

/-- `enabled`: COSTAT bit 1 is set (R11). -/
def State.enabled (s : State) : Bool := s.costat.getLsbD 1

/-- `selected`: COSTAT bits 10:8 are 001 (R11). -/
def State.selected (s : State) : Bool := s.costat.extractLsb' 8 3 == 0b001#3

/-- `long`: COSTAT bit 12 is set; `short` is its negation (R11). -/
def State.long (s : State) : Bool := s.costat.getLsbD 12

/-- `ROUND_MODE` (40_numerics.md R66). -/
abbrev State.roundMode (s : State) : Config.RoundMode := s.params.roundMode

/-- `available`: enabled and selected (41_register_access.md R86). -/
def State.available (s : State) : Bool := s.enabled && s.selected

/-- Writing COSTAT keeps the storage bits (R13). A value that leaves bit 1 clear drops what the unit holds, unless the
parameter keeps it (R26 (b), R81; D13). -/
def State.writeCostat (s : State) (v : Word) : State :=
  let new := v &&& costatImplMask s.params
  if new.getLsbD 1 || s.params.fpuStateSurvivesDisable then { s with costat := new }
  else
    { s with
      costat := new
      fplow := Config.freeFplow s.draws
      fpa0 := Config.freeFpa0 s.draws
      fpa1 := Config.freeFpa1 s.draws }

/-! ### The step skeleton (41_register_access.md R87) -/

/-- The end of an instruction that completes: `pc <- pc + 2` (10_state.md R22; D16), and the free values it may have used are
used up (notes/assumptions/5.md). -/
def State.complete (s : State) : State :=
  { s with pc := s.pc + 2#32, draws := s.draws + 1 }

/-- The availability check before an access to coprocessor registers 1 to 15 (R86, R131): with the unit unavailable the
instruction `i` faults, with its word and COSTAT, and nothing is written. -/
def State.ifAvailable (s : State) (i : Instr) (r : Host.Outcome State Fault Refusal) :
    Host.Outcome State Fault Refusal :=
  if s.available then r else .fault (.coprocessorUnavailable (encode i) s.costat)

/-- Step (1) of R87: the 16-bit word at `pc`. Instructions lie at even addresses (20_memory.md R35; D16); an odd `pc`, or a
byte that nothing has stored, stops in a fault of the model (notes/assumptions/20.md, 21.md). -/
def State.fetchWord (s : State) : Except Fault InstrWord :=
  if s.pc.getLsbD 0 then .error (.misalignedFetch s.pc)
  else
    match Memory.readLE s.mem s.pc 2 with
    | some w => .ok (BitVec.ofNat 16 w)
    | none => .error (.unwrittenFetch s.pc)

/-- The low `nbits` bits of `w`, in the two bytes of an instruction, placed where the next fetch reads them. -/
def State.placeInstruction (s : State) (nbits w : Nat) : State :=
  { s with mem := Memory.writeLE s.mem s.pc 2 (w % 2 ^ nbits) }

end Sys2Proof.Machine
end

