-- ==== Sys2Proof/Machine/Operands.lean ====
section
/-! DEFINITION. How operands enter the unit and results leave it, in short and in long mode (40_numerics.md R73, R75;
10_state.md R15). -/

namespace Sys2Proof.Machine

/-- `operand(srcx)` (R73): in long mode `r[srcx] :: FPLOW`, in short mode the short number widened. -/
def State.operand (s : State) (src : RegNum) : B64 :=
  if s.long then s.readReg src ++ s.fplow else widen s.draws (s.readReg src)

/-- `operand_int(srcx)` (R73): the two's-complement value of `r[srcx] :: FPLOW` in long mode, of `r[srcx]` in short mode. -/
def State.operandInt (s : State) (src : RegNum) : Int :=
  if s.long then (s.readReg src ++ s.fplow : BitVec 64).toInt else (s.readReg src).toInt

/-- A long number leaves the unit (R73): the high word to `r[dst]`, the low word to FPLOW, the codes from both. -/
def State.deliverLong (s : State) (y : B64) (dst : RegNum) : State :=
  let hi := y.extractLsb' 32 32
  let lo := y.extractLsb' 0 32
  { s.writeReg dst hi with fplow := lo, cc := fpCcLong hi lo }

/-- A short number leaves the unit (R73): the word to `r[dst]`, the codes from it, FPLOW undefined (R15). -/
def State.deliverShort (s : State) (w : B32) (dst : RegNum) : State :=
  { s.writeReg dst w with fplow := Config.freeFplow s.draws, cc := fpCcShort w }

/-- `deliver(y, dst)` (R73). -/
def State.deliver (s : State) (y : B64) (dst : RegNum) : State :=
  if s.long then s.deliverLong y dst else s.deliverShort (narrow s.roundMode s.draws y) dst

/-- What a COSET of registers 2 to 15 leaves in FPLOW: in long mode what it held, if the parameter says so (R85; D10), in
short mode anything (R15). -/
def State.fplowAfterCoset (s : State) : Word :=
  if s.long && s.params.fplowPreservedByCoset then s.fplow else Config.freeFplow s.draws

/-- `FPA[k] <- y` by a COSET of registers 2 to 15, with what it leaves in FPLOW. -/
def State.loadFpa (s : State) (k : Accumulator) (y : B64) : State :=
  { s.setFpa k y with fplow := s.fplowAfterCoset }

/-- The result of an operation as the accumulator keeps it: as it is, or rounded to short in short mode where the parameter
says so (R75; D2). -/
def State.kept (s : State) (y : B64) : B64 :=
  if !s.long && s.params.shortRoundsAccumulator then shortRounded s.roundMode s.draws y else y

/-- The result `y` of a COSET operation replaces `FPA[k]` (43_coset_operations.md R106). -/
def State.storeResult (s : State) (k : Accumulator) (y : B64) : State :=
  s.loadFpa k (s.kept y)

end Sys2Proof.Machine
end

