-- ==== Sys2Proof/Machine/CogetOperations.lean ====
section
/-! DEFINITION. The COGET operations: negate, absolute value, and the register numbers that name none
(42_coget_operations.md R90 to R93). -/

namespace Sys2Proof.Machine

/-- `COGET dst,FPAk+FPNEG` (R90). -/
def execCogetFpneg (dst : RegNum) (k : Accumulator) (s : State) : Host.Outcome State Fault Refusal :=
  s.ifAvailable (.cogetFpneg dst k) <| .next (s.deliver (negate64 (s.fpa k)) dst).complete

/-- `COGET dst,FPAk+FPABS` (R91). In short mode bit 31 of the delivered word is cleared after narrowing, also when the word is
a drawn NaN. -/
def execCogetFpabs (dst : RegNum) (k : Accumulator) (s : State) : Host.Outcome State Fault Refusal :=
  let y := absolute64 (s.fpa k)
  s.ifAvailable (.cogetFpabs dst k) <| .next <| State.complete <|
    if s.long then s.deliverLong y dst else s.deliverShort (absolute32 (narrow s.roundMode s.draws y)) dst

/-- COGET of coprocessor registers 8 to 15 (R92): the spec defines no operation there and makes it a fault; the availability
check comes first (60_exceptions.md R135). -/
def execCogetUndefined (dst : RegNum) (number : CopNum) (s : State) : Host.Outcome State Fault Refusal :=
  s.ifAvailable (.cogetUndefined dst number) <|
    .fault (.undefinedCoprocessorOperation (encode (.cogetUndefined dst number)) s.costat)

end Sys2Proof.Machine
end

