-- ==== Sys2Proof/Machine/CosetOperations.lean ====
section
/-! DEFINITION. The COSET operations: integer to floating, square root, add, subtract, multiply, divide
(43_coset_operations.md R100 to R107). The accumulator is the left operand and the destination (R107). -/

namespace Sys2Proof.Machine

/-- `COSET src,FPINT+FPAk` (R100). -/
def execCosetFpint (src : RegNum) (k : Accumulator) (s : State) : Host.Outcome State Fault Refusal :=
  s.ifAvailable (.cosetFpint src k) <| .next (s.storeResult k (intToB64 s.roundMode (s.operandInt src))).complete

/-- `COSET src,FPSQRT+FPAk` (R101). -/
def execCosetFpsqrt (src : RegNum) (k : Accumulator) (s : State) : Host.Outcome State Fault Refusal :=
  s.ifAvailable (.cosetFpsqrt src k) <| .next (s.storeResult k (fsqrt s.roundMode s.draws (s.operand src))).complete

/-- `COSET src,FPADD+FPAk` (R102). -/
def execCosetFpadd (src : RegNum) (k : Accumulator) (s : State) : Host.Outcome State Fault Refusal :=
  s.ifAvailable (.cosetFpadd src k) <| .next (s.storeResult k (fadd s.roundMode s.draws (s.fpa k) (s.operand src))).complete

/-- `COSET src,FPSUB+FPAk` (R103). -/
def execCosetFpsub (src : RegNum) (k : Accumulator) (s : State) : Host.Outcome State Fault Refusal :=
  s.ifAvailable (.cosetFpsub src k) <| .next (s.storeResult k (fsub s.roundMode s.draws (s.fpa k) (s.operand src))).complete

/-- `COSET src,FPMUL+FPAk` (R104). -/
def execCosetFpmul (src : RegNum) (k : Accumulator) (s : State) : Host.Outcome State Fault Refusal :=
  s.ifAvailable (.cosetFpmul src k) <| .next (s.storeResult k (fmul s.roundMode s.draws (s.fpa k) (s.operand src))).complete

/-- `COSET src,FPDIV+FPAk` (R105). -/
def execCosetFpdiv (src : RegNum) (k : Accumulator) (s : State) : Host.Outcome State Fault Refusal :=
  s.ifAvailable (.cosetFpdiv src k) <| .next (s.storeResult k (fdiv s.roundMode s.draws (s.fpa k) (s.operand src))).complete

end Sys2Proof.Machine
end

