-- ==== Sys2Proof/Machine/RegisterAccess.lean ====
section
/-! DEFINITION. COGET and COSET of coprocessor registers 0 to 3 (41_register_access.md R80 to R87). -/

namespace Sys2Proof.Machine

/-- `COGET dst,COSTAT` (R80). No availability check; the codes are drawn (D7). -/
def execCogetCostat (dst : RegNum) (s : State) : Host.Outcome State Fault Refusal :=
  .next { s.writeReg dst s.costat with cc := drawnCc s.draws }.complete

/-- `COGET dst,FPLOW` (R82). In short mode the word delivered and FPLOW are both undefined (R15); the codes are drawn. -/
def execCogetFplow (dst : RegNum) (s : State) : Host.Outcome State Fault Refusal :=
  s.ifAvailable (.cogetFplow dst) <| .next <| State.complete <|
    if s.long then { s.writeReg dst s.fplow with cc := drawnCc s.draws }
    else
      { s.writeReg dst (Config.freeFplowRead s.draws) with
        fplow := Config.freeFplow s.draws
        cc := drawnCc s.draws }

/-- `COGET dst,FPAk` (R84). -/
def execCogetFpa (dst : RegNum) (k : Accumulator) (s : State) : Host.Outcome State Fault Refusal :=
  s.ifAvailable (.cogetFpa dst k) <| .next (s.deliver (s.fpa k) dst).complete

/-- `COSET src,COSTAT` (R81). No availability check; the codes are unchanged (D8). -/
def execCosetCostat (src : RegNum) (s : State) : Host.Outcome State Fault Refusal :=
  .next (s.writeCostat (s.readReg src)).complete

/-- `COSET src,FPLOW` (R83). In short mode FPLOW becomes undefined (R15). -/
def execCosetFplow (src : RegNum) (s : State) : Host.Outcome State Fault Refusal :=
  s.ifAvailable (.cosetFplow src) <| .next <| State.complete
    { s with fplow := if s.long then s.readReg src else Config.freeFplow s.draws }

/-- `COSET src,FPAk` (R85). -/
def execCosetFpa (src : RegNum) (k : Accumulator) (s : State) : Host.Outcome State Fault Refusal :=
  s.ifAvailable (.cosetFpa src k) <| .next (s.loadFpa k (s.operand src)).complete

end Sys2Proof.Machine
end

