-- ==== Sys2Proof/Machine/Dispatch.lean ====
section
/-! DEFINITION. Which meaning each instruction has: one arm per constructor. -/

namespace Sys2Proof.Machine

def exec (i : Instr) (s : State) : Host.Outcome State Fault Refusal :=
  match i with
  | .cogetCostat dst => Sys2Proof.Machine.execCogetCostat dst s
  | .cogetFplow dst => Sys2Proof.Machine.execCogetFplow dst s
  | .cogetFpa dst k => Sys2Proof.Machine.execCogetFpa dst k s
  | .cogetFpneg dst k => Sys2Proof.Machine.execCogetFpneg dst k s
  | .cogetFpabs dst k => Sys2Proof.Machine.execCogetFpabs dst k s
  | .cogetUndefined dst number => Sys2Proof.Machine.execCogetUndefined dst number s
  | .cosetCostat src => Sys2Proof.Machine.execCosetCostat src s
  | .cosetFplow src => Sys2Proof.Machine.execCosetFplow src s
  | .cosetFpa src k => Sys2Proof.Machine.execCosetFpa src k s
  | .cosetFpint src k => Sys2Proof.Machine.execCosetFpint src k s
  | .cosetFpsqrt src k => Sys2Proof.Machine.execCosetFpsqrt src k s
  | .cosetFpadd src k => Sys2Proof.Machine.execCosetFpadd src k s
  | .cosetFpsub src k => Sys2Proof.Machine.execCosetFpsub src k s
  | .cosetFpmul src k => Sys2Proof.Machine.execCosetFpmul src k s
  | .cosetFpdiv src k => Sys2Proof.Machine.execCosetFpdiv src k s

end Sys2Proof.Machine
end

