-- ==== Sys2Proof/Machine/Step.lean ====
section
/-! DEFINITION. One step of the machine: fetch, recognise, execute (41_register_access.md R87, 60_exceptions.md R135). -/

namespace Sys2Proof.Machine

/-- One step. A word that is neither COGET nor COSET is refused by name (R137; D24). -/
def step (s : State) : Host.Outcome State Fault Refusal :=
  match s.fetchWord with
  | .error f => .fault f
  | .ok w =>
    match decodeWord w with
    | .ok i => exec i s
    | .error _ => .refused (.notACoprocessorInstruction w)

/-- `s` with the instruction of a table row's word stored where the next fetch reads: at `pc` and `pc + 1`. The machine has no
loader: this stands for the program being loaded from outside (notes/assumptions/21.md). -/
def State.withFetchWord (s : State) (nbits w : Nat) : State :=
  s.placeInstruction nbits w

end Sys2Proof.Machine
end

