-- ==== Sys2Proof/Laws/Numerics.lean ====
section
/-! SUPPORT. The small lemmas of the numeric functions: the fields of a pattern as numbers, the patterns that `pack64`, the
zeros, the infinities and the NaN results make, and the bounds that rounding and the square root keep. -/

namespace Sys2Proof.Machine

/-! ### Fields as numbers -/

theorem exponent64_toNat (y : B64) : (exponent64 y).toNat = y.toNat / 2 ^ 52 % 2 ^ 11 := by
  simp [exponent64, Nat.shiftRight_eq_div_pow]

theorem mantissa64_toNat (y : B64) : (mantissa64 y).toNat = y.toNat % 2 ^ 52 := by
  simp [mantissa64]

theorem sign64_eq (y : B64) : sign64 y = decide (2 ^ 63 ≤ y.toNat) := by
  simp [sign64, BitVec.msb_eq_decide]

theorem exponent32_toNat (x : B32) : (exponent32 x).toNat = x.toNat / 2 ^ 23 % 2 ^ 8 := by
  simp [exponent32, Nat.shiftRight_eq_div_pow]

theorem mantissa32_toNat (x : B32) : (mantissa32 x).toNat = x.toNat % 2 ^ 23 := by
  simp [mantissa32]

theorem sign32_eq (x : B32) : sign32 x = decide (2 ^ 31 ≤ x.toNat) := by
  simp [sign32, BitVec.msb_eq_decide]

/-- Two long patterns with the same sign, exponent and mantissa are the same. -/
theorem eq_of_fields64 (y z : B64) (hs : sign64 y = sign64 z) (he : exponent64 y = exponent64 z)
    (hm : mantissa64 y = mantissa64 z) : y = z := by
  have he := congrArg BitVec.toNat he
  have hm := congrArg BitVec.toNat hm
  rw [exponent64_toNat, exponent64_toNat] at he
  rw [mantissa64_toNat, mantissa64_toNat] at hm
  rw [sign64_eq, sign64_eq, decide_eq_decide] at hs
  apply BitVec.eq_of_toNat_eq
  have := y.isLt
  have := z.isLt
  omega

/-- Two short patterns with the same sign, exponent and mantissa are the same. -/
theorem eq_of_fields32 (x z : B32) (hs : sign32 x = sign32 z) (he : exponent32 x = exponent32 z)
    (hm : mantissa32 x = mantissa32 z) : x = z := by
  have he := congrArg BitVec.toNat he
  have hm := congrArg BitVec.toNat hm
  rw [exponent32_toNat, exponent32_toNat] at he
  rw [mantissa32_toNat, mantissa32_toNat] at hm
  rw [sign32_eq, sign32_eq, decide_eq_decide] at hs
  apply BitVec.eq_of_toNat_eq
  have := x.isLt
  have := z.isLt
  omega

/-! ### Patterns made from fields -/

/-- A concatenation as a number. -/
theorem toNat_concat {m n : Nat} (x : BitVec m) (y : BitVec n) : (x ++ y).toNat = x.toNat * 2 ^ n + y.toNat := by
  rw [BitVec.toNat_append, ← Nat.shiftLeft_add_eq_or_of_lt y.isLt, Nat.shiftLeft_eq]

theorem pack64_toNat (s : Bool) (bits : Nat) : (pack64 s bits).toNat = s.toNat * 2 ^ 63 + bits % 2 ^ 63 := by
  have := toNat_concat (BitVec.ofBool s) (BitVec.ofNat 63 bits)
  rw [BitVec.toNat_ofBool, BitVec.toNat_ofNat] at this
  exact this

theorem pack32_toNat (s : Bool) (bits : Nat) : (pack32 s bits).toNat = s.toNat * 2 ^ 31 + bits % 2 ^ 31 := by
  have := toNat_concat (BitVec.ofBool s) (BitVec.ofNat 31 bits)
  rw [BitVec.toNat_ofBool, BitVec.toNat_ofNat] at this
  exact this

/-- A long pattern made of its three fields, as a number. -/
theorem fields64_toNat (s : Bool) (e : BitVec 11) (m : BitVec 52) :
    (BitVec.ofBool s ++ e ++ m : B64).toNat = s.toNat * 2 ^ 63 + e.toNat * 2 ^ 52 + m.toNat := by
  have h1 := toNat_concat (BitVec.ofBool s ++ e) m
  have h2 := toNat_concat (BitVec.ofBool s) e
  rw [h2, BitVec.toNat_ofBool] at h1
  refine h1.trans ?_
  omega

/-- A short pattern made of its three fields, as a number. -/
theorem fields32_toNat (s : Bool) (e : BitVec 8) (m : BitVec 23) :
    (BitVec.ofBool s ++ e ++ m : B32).toNat = s.toNat * 2 ^ 31 + e.toNat * 2 ^ 23 + m.toNat := by
  have h1 := toNat_concat (BitVec.ofBool s ++ e) m
  have h2 := toNat_concat (BitVec.ofBool s) e
  rw [h2, BitVec.toNat_ofBool] at h1
  refine h1.trans ?_
  omega

/-- The fields of a long pattern made of three fields. -/
theorem fields64 (s : Bool) (e : BitVec 11) (m : BitVec 52) :
    sign64 (BitVec.ofBool s ++ e ++ m) = s ∧ exponent64 (BitVec.ofBool s ++ e ++ m) = e ∧
      mantissa64 (BitVec.ofBool s ++ e ++ m) = m := by
  have h := fields64_toNat s e m
  have := e.isLt
  have := m.isLt
  refine ⟨?_, BitVec.eq_of_toNat_eq ?_, BitVec.eq_of_toNat_eq ?_⟩
  · rw [sign64_eq, h]
    cases s <;> simp <;> omega
  · rw [exponent64_toNat, h]
    cases s <;> simp <;> omega
  · rw [mantissa64_toNat, h]
    cases s <;> simp <;> omega

/-- The fields of a short pattern made of three fields. -/
theorem fields32 (s : Bool) (e : BitVec 8) (m : BitVec 23) :
    sign32 (BitVec.ofBool s ++ e ++ m) = s ∧ exponent32 (BitVec.ofBool s ++ e ++ m) = e ∧
      mantissa32 (BitVec.ofBool s ++ e ++ m) = m := by
  have h := fields32_toNat s e m
  have := e.isLt
  have := m.isLt
  refine ⟨?_, BitVec.eq_of_toNat_eq ?_, BitVec.eq_of_toNat_eq ?_⟩
  · rw [sign32_eq, h]
    cases s <;> simp <;> omega
  · rw [exponent32_toNat, h]
    cases s <;> simp <;> omega
  · rw [mantissa32_toNat, h]
    cases s <;> simp <;> omega

/-- The fields of a packed long pattern. -/
theorem fields_pack64 (s : Bool) (bits : Nat) (h : bits < 2 ^ 63) :
    sign64 (pack64 s bits) = s ∧ (exponent64 (pack64 s bits)).toNat = bits / 2 ^ 52 ∧
      (mantissa64 (pack64 s bits)).toNat = bits % 2 ^ 52 := by
  have e := pack64_toNat s bits
  refine ⟨?_, ?_, ?_⟩
  · rw [sign64_eq, e]
    cases s <;> simp
    omega
  · rw [exponent64_toNat, e]
    cases s <;> simp <;> omega
  · rw [mantissa64_toNat, e]
    cases s <;> simp
    omega

/-- The fields of a packed short pattern. -/
theorem fields_pack32 (s : Bool) (bits : Nat) (h : bits < 2 ^ 31) :
    sign32 (pack32 s bits) = s ∧ (exponent32 (pack32 s bits)).toNat = bits / 2 ^ 23 ∧
      (mantissa32 (pack32 s bits)).toNat = bits % 2 ^ 23 := by
  have e := pack32_toNat s bits
  refine ⟨?_, ?_, ?_⟩
  · rw [sign32_eq, e]
    cases s <;> simp
    omega
  · rw [exponent32_toNat, e]
    cases s <;> simp <;> omega
  · rw [mantissa32_toNat, e]
    cases s <;> simp
    omega

/-- Every NaN result of the long format is a NaN, whatever the free values are. -/
theorem isNaN64_nanResult64 (t : Nat) (o : Config.NanOrigin) : isNaN64 (nanResult64 t o) = true := by
  obtain ⟨-, he, hm⟩ := fields64 (Config.nanSign t o) 0x7FF#11 (BitVec.ofNat 52 ((Config.nanMantissa64 t o).val + 1))
  have hlt := (Config.nanMantissa64 t o).isLt
  have hne : BitVec.ofNat 52 ((Config.nanMantissa64 t o).val + 1) ≠ 0#52 := fun e => by
    have := congrArg BitVec.toNat e
    rw [BitVec.toNat_ofNat, Nat.mod_eq_of_lt (by omega)] at this
    simp at this
  simp only [isNaN64, nanResult64, he, hm, beq_self_eq_true, Bool.true_and, bne_iff_ne, ne_eq, hne, not_false_eq_true]

/-- Every NaN result of the short format is a NaN, whatever the free values are. -/
theorem isNaN32_nanResult32 (t : Nat) (o : Config.NanOrigin) : isNaN32 (nanResult32 t o) = true := by
  obtain ⟨-, he, hm⟩ := fields32 (Config.nanSign t o) 0xFF#8 (BitVec.ofNat 23 ((Config.nanMantissa32 t o).val + 1))
  have hlt := (Config.nanMantissa32 t o).isLt
  have hne : BitVec.ofNat 23 ((Config.nanMantissa32 t o).val + 1) ≠ 0#23 := fun e => by
    have := congrArg BitVec.toNat e
    rw [BitVec.toNat_ofNat, Nat.mod_eq_of_lt (by omega)] at this
    simp at this
  simp only [isNaN32, nanResult32, he, hm, beq_self_eq_true, Bool.true_and, bne_iff_ne, ne_eq, hne, not_false_eq_true]

/-! ### Rounding and the square root -/

/-- What `roundHalfEven` answers: a number at most half a divisor away, and even where it is exactly half. -/
theorem roundHalfEven_spec (n d : Nat) (hd : 0 < d) :
    2 * n ≤ (2 * roundHalfEven n d + 1) * d ∧ 2 * (roundHalfEven n d * d) ≤ 2 * n + d ∧
      ((2 * n = (2 * roundHalfEven n d + 1) * d ∨ 2 * (roundHalfEven n d * d) = 2 * n + d) →
        roundHalfEven n d % 2 = 0) := by
  have hdiv := Nat.div_add_mod n d
  have hmod := Nat.mod_lt n hd
  unfold roundHalfEven
  generalize n / d = q at *
  generalize n % d = r at *
  subst hdiv
  split
  · refine ⟨by ring_nf; omega, by ring_nf; omega, fun h => ?_⟩
    rcases h with h | h <;> (ring_nf at h; omega)
  · split
    · refine ⟨by ring_nf; omega, by ring_nf; omega, fun h => ?_⟩
      rcases h with h | h <;> (ring_nf at h; omega)
    · have hr : d = 2 * r := by omega
      subst hr
      rcases Nat.mod_two_eq_zero_or_one q with hq | hq <;> rw [hq]
      · refine ⟨by ring_nf; omega, by ring_nf; omega, fun _ => by omega⟩
      · refine ⟨by ring_nf; omega, by ring_nf; omega, fun _ => by omega⟩

/-- A whole number of divisors is not rounded. -/
theorem roundHalfEven_exact (n d : Nat) (hd : 0 < d) : roundHalfEven (n * d) d = n := by
  simp [roundHalfEven, hd]

/-- What `roundHalfAway` answers: a number at most half a divisor away, and below half where it lies below. -/
theorem roundHalfAway_spec (n d : Nat) (hd : 0 < d) :
    2 * n < (2 * roundHalfAway n d + 1) * d ∧ 2 * (roundHalfAway n d * d) ≤ 2 * n + d := by
  have h1 := Nat.div_add_mod (2 * n + d) (2 * d)
  have h2 := Nat.mod_lt (2 * n + d) (show 0 < 2 * d by omega)
  unfold roundHalfAway
  generalize (2 * n + d) / (2 * d) = q at *
  have e1 : 2 * d * q = 2 * (q * d) := by ring
  have e2 : (2 * q + 1) * d = 2 * (q * d) + d := by ring
  omega

/-- What `roundUp` answers: the least number that is at least the fraction. -/
theorem roundUp_spec (n d : Nat) (hd : 0 < d) : n ≤ roundUp n d * d ∧ ∀ c, n ≤ c * d → roundUp n d ≤ c := by
  unfold roundUp
  constructor
  · have h1 := Nat.div_add_mod (n + d - 1) d
    have h2 := Nat.mod_lt (n + d - 1) hd
    rw [Nat.mul_comm] at h1
    omega
  · intro c hc
    rw [Nat.div_le_iff_le_mul_add_pred hd, Nat.mul_comm]
    omega

/-- Rounding to a whole number passes no whole number, in any mode. -/
theorem roundWhole_between (m : Config.RoundMode) (s : Bool) (n d c : Nat) (hd : 0 < d) :
    (c * d ≤ n → c ≤ roundWhole m s n d) ∧ (n ≤ c * d → roundWhole m s n d ≤ c) := by
  have down : (c * d ≤ n → c ≤ n / d) ∧ (n ≤ c * d → n / d ≤ c) :=
    ⟨fun h => (Nat.le_div_iff_mul_le hd).mpr h, fun h => Nat.div_le_of_le_mul (by rwa [Nat.mul_comm])⟩
  have up : (c * d ≤ n → c ≤ roundUp n d) ∧ (n ≤ c * d → roundUp n d ≤ c) := by
    obtain ⟨h1, h2⟩ := roundUp_spec n d hd
    exact ⟨fun h => Nat.le_of_mul_le_mul_right (h.trans h1) hd, h2 c⟩
  have half : ∀ r, 2 * n ≤ (2 * r + 1) * d → 2 * (r * d) ≤ 2 * n + d → (c * d ≤ n → c ≤ r) ∧ (n ≤ c * d → r ≤ c) := by
    intro r h1 h2
    constructor
    · intro h
      by_contra hc
      have : (r + 1) * d ≤ c * d := Nat.mul_le_mul_right d (by omega)
      ring_nf at *
      omega
    · intro h
      by_contra hc
      have : (c + 1) * d ≤ r * d := Nat.mul_le_mul_right d (by omega)
      ring_nf at *
      omega
  cases m with
  | nearestEven => exact half _ (roundHalfEven_spec n d hd).1 (roundHalfEven_spec n d hd).2.1
  | nearestAway => exact half _ (roundHalfAway_spec n d hd).1.le (roundHalfAway_spec n d hd).2
  | towardZero => exact down
  | towardPositive => cases s with
    | false => exact up
    | true => exact down
  | towardNegative => cases s with
    | false => exact down
    | true => exact up

/-- A rounded magnitude is at most the infinity's fields. -/
theorem roundMagnitude_le (m : Config.RoundMode) (s : Bool) (mBits eBits n d : Nat) :
    roundMagnitude m s mBits eBits n d ≤ (2 ^ eBits - 1) * 2 ^ mBits :=
  Nat.min_le_right _ _

/-- The square root is the largest number whose square is at most the radicand. -/
theorem squareRoot_spec (n x : Nat) (h : x < 4 ^ n) :
    squareRoot n x * squareRoot n x ≤ x ∧ x < (squareRoot n x + 1) * (squareRoot n x + 1) := by
  induction n generalizing x with
  | zero => simp at h; simp [squareRoot, h]
  | succ n ih =>
    obtain ⟨h1, h2⟩ := ih (x / 4) (by rw [Nat.pow_succ] at h; omega)
    unfold squareRoot
    generalize squareRoot n (x / 4) = r at *
    dsimp only
    have e1 : (2 * r) * (2 * r) = 4 * (r * r) := by ring
    have e2 : (2 * r + 1 + 1) * (2 * r + 1 + 1) = 4 * ((r + 1) * (r + 1)) := by ring
    split
    · exact ⟨by assumption, by rw [e2]; omega⟩
    · exact ⟨by rw [e1]; omega, by omega⟩

end Sys2Proof.Machine
end

