-- ==== Sys2Proof/Laws/Decode.lean ====
section
/-! SUPPORT. The four fields of an instruction word, what the decoder and the operation map do with them, and the sixteen
coprocessor register numbers one by one. -/

namespace Sys2Proof

open Sys2Proof.Machine (toNat_concat)

/-- The fields of a word made of four fields. -/
theorem word_fields (f n m r : BitVec 4) :
    (f ++ n ++ m ++ r : InstrWord).extractLsb' 12 4 = f ∧ (f ++ n ++ m ++ r : InstrWord).extractLsb' 8 4 = n ∧
      (f ++ n ++ m ++ r : InstrWord).extractLsb' 4 4 = m ∧ (f ++ n ++ m ++ r : InstrWord).extractLsb' 0 4 = r := by
  have h1 := toNat_concat (f ++ n ++ m) r
  rw [toNat_concat (f ++ n) m, toNat_concat f n] at h1
  have hw : (f ++ n ++ m ++ r : InstrWord).toNat = ((f.toNat * 2 ^ 4 + n.toNat) * 2 ^ 4 + m.toNat) * 2 ^ 4 + r.toNat := h1
  refine ⟨?_, ?_, ?_, ?_⟩ <;> apply BitVec.eq_of_toNat_eq <;>
    simp only [BitVec.extractLsb'_toNat, Nat.shiftRight_eq_div_pow, hw] <;> omega

/-- A word is made of its four fields. -/
theorem word_of_fields (w : InstrWord) :
    w.extractLsb' 12 4 ++ w.extractLsb' 8 4 ++ w.extractLsb' 4 4 ++ w.extractLsb' 0 4 = w := by
  have h1 := toNat_concat (w.extractLsb' 12 4 ++ w.extractLsb' 8 4 ++ w.extractLsb' 4 4) (w.extractLsb' 0 4)
  rw [toNat_concat (w.extractLsb' 12 4 ++ w.extractLsb' 8 4) (w.extractLsb' 4 4),
    toNat_concat (w.extractLsb' 12 4) (w.extractLsb' 8 4)] at h1
  apply BitVec.eq_of_toNat_eq
  refine Eq.trans h1 ?_
  simp only [BitVec.extractLsb'_toNat, Nat.shiftRight_eq_div_pow]
  have := w.isLt
  omega

/-- A word with the fields of COGET decodes by the operation map. -/
theorem decodeWord_coget (n r : BitVec 4) : decodeWord (0b0011#4 ++ n ++ 0b0001#4 ++ r) = .ok (cogetOf n r) := by
  obtain ⟨h1, h2, h3, h4⟩ := word_fields 0b0011#4 n 0b0001#4 r
  unfold decodeWord
  dsimp only
  rw [h1, h2, h3, h4]
  simp

/-- A word with the fields of COSET decodes by the operation map. -/
theorem decodeWord_coset (n r : BitVec 4) : decodeWord (0b0010#4 ++ n ++ 0b0001#4 ++ r) = .ok (cosetOf n r) := by
  obtain ⟨h1, h2, h3, h4⟩ := word_fields 0b0010#4 n 0b0001#4 r
  unfold decodeWord
  dsimp only
  rw [h1, h2, h3, h4]
  simp

/-- An encoded instruction of the COGET format decodes by the operation map. -/
theorem decodeWord_encode_coget (i : Instr) (h : i.format = 0b0011#4) :
    decodeWord (encode i) = .ok (cogetOf i.number i.reg) := by
  rw [encode, h]
  exact decodeWord_coget i.number i.reg

/-- An encoded instruction of the COSET format decodes by the operation map. -/
theorem decodeWord_encode_coset (i : Instr) (h : i.format = 0b0010#4) :
    decodeWord (encode i) = .ok (cosetOf i.number i.reg) := by
  rw [encode, h]
  exact decodeWord_coset i.number i.reg

/-- The sixteen values of a four-bit number. -/
theorem nibble_cases (n : BitVec 4) :
    n = 0 ∨ n = 1 ∨ n = 2 ∨ n = 3 ∨ n = 4 ∨ n = 5 ∨ n = 6 ∨ n = 7 ∨ n = 8 ∨ n = 9 ∨ n = 10 ∨ n = 11 ∨ n = 12 ∨
      n = 13 ∨ n = 14 ∨ n = 15 := by
  revert n
  decide

/-- The operation map keeps the format, the number and the register: COGET. -/
theorem cogetOf_fields (n r : BitVec 4) :
    (cogetOf n r).format = 0b0011#4 ∧ (cogetOf n r).number = n ∧ (cogetOf n r).reg = r ∧ (cogetOf n r).WellFormed := by
  rcases nibble_cases n with h | h | h | h | h | h | h | h | h | h | h | h | h | h | h | h <;> subst h <;>
    exact ⟨rfl, rfl, rfl, rfl⟩

/-- The operation map keeps the format, the number and the register: COSET. -/
theorem cosetOf_fields (n r : BitVec 4) :
    (cosetOf n r).format = 0b0010#4 ∧ (cosetOf n r).number = n ∧ (cosetOf n r).reg = r ∧ (cosetOf n r).WellFormed := by
  rcases nibble_cases n with h | h | h | h | h | h | h | h | h | h | h | h | h | h | h | h <;> subst h <;>
    exact ⟨rfl, rfl, rfl, rfl⟩

end Sys2Proof
end

