-- ==== Sys2Proof/Laws/Memory.lean ====
section
/-! SUPPORT. The laws of memory: read after write, and the canonical form that every operation keeps. -/

namespace Sys2Proof.Machine

theorem Memory.read_write_same (m : Memory) (a : Nat) (v : Byte) : Memory.read (Memory.write m a v) a = some v := by
  induction m with
  | nil => simp [Memory.write, Memory.read]
  | cons c rest ih =>
    obtain ⟨b, w⟩ := c
    unfold Memory.write
    split
    · simp [Memory.read]
    · split
      · simp [Memory.read]
      · rename_i h; simp [Memory.read, h, ih]

theorem Memory.read_write_other (m : Memory) (a b : Nat) (v : Byte) (h : b ≠ a) :
    Memory.read (Memory.write m a v) b = Memory.read m b := by
  induction m with
  | nil => simp [Memory.write, Memory.read, h]
  | cons c rest ih =>
    obtain ⟨d, w⟩ := c
    unfold Memory.write
    split
    · rw [Memory.read, if_neg h]
    · split
      · subst d; simp [Memory.read, h]
      · simp [Memory.read, ih]

/-- The addresses listed after a write are those listed before, and the one written. -/
theorem Memory.mem_write_addresses (m : Memory) (a : Nat) (v : Byte) (b : Nat) :
    b ∈ (Memory.write m a v).map Prod.fst → b = a ∨ b ∈ m.map Prod.fst := by
  induction m with
  | nil => simp [Memory.write]
  | cons c rest ih =>
    obtain ⟨d, w⟩ := c
    unfold Memory.write
    split
    · simp
    · split
      · subst d; simp
      · simp only [List.map_cons, List.mem_cons]
        rintro (h | h)
        · exact .inr (.inl h)
        · rcases ih h with h | h
          · exact .inl h
          · exact .inr (.inr h)

theorem Memory.write_pairwise (m : Memory) (a : Nat) (v : Byte) (h : (m.map Prod.fst).Pairwise (· < ·)) :
    ((Memory.write m a v).map Prod.fst).Pairwise (· < ·) := by
  induction m with
  | nil => simp [Memory.write]
  | cons c rest ih =>
    obtain ⟨d, w⟩ := c
    simp only [List.map_cons, List.pairwise_cons] at h
    unfold Memory.write
    split
    · rename_i had
      simp only [List.map_cons, List.pairwise_cons, List.mem_cons]
      refine ⟨?_, h.1, h.2⟩
      rintro x (rfl | hx)
      · exact had
      · exact Nat.lt_trans had (h.1 x hx)
    · split
      · subst d; simpa using h
      · simp only [List.map_cons, List.pairwise_cons]
        refine ⟨fun x hx => ?_, ih h.2⟩
        rcases Memory.mem_write_addresses rest a v x hx with hx | hx
        · omega
        · exact h.1 x hx

/-- Storing a byte at an address of the address space keeps the canonical form. -/
theorem Memory.write_wf (m : Memory) (a : Nat) (v : Byte) (ha : a < 2 ^ 32) (h : Memory.wf m) :
    Memory.wf (Memory.write m a v) := by
  refine ⟨Memory.write_pairwise m a v h.1, fun c hc => ?_⟩
  rcases Memory.mem_write_addresses m a v c.1 (List.mem_map_of_mem hc) with e | e
  · omega
  · obtain ⟨d, hd, e⟩ := List.mem_map.mp e
    exact e ▸ h.2 d hd

/-- `MemWrite` keeps the canonical form. -/
theorem Memory.writeLE_wf (m : Memory) (a : Word) (n v : Nat) (h : Memory.wf m) :
    Memory.wf (Memory.writeLE m a n v) := by
  induction n generalizing m a v with
  | zero => exact h
  | succ n ih => exact ih _ _ _ (Memory.write_wf m _ _ a.isLt h)

/-- A `MemWrite` leaves every byte outside its `n` addresses alone. -/
theorem Memory.read_writeLE_other (m : Memory) (a : Word) (n v b : Nat)
    (h : ∀ j < n, b ≠ (a + BitVec.ofNat 32 j).toNat) :
    Memory.read (Memory.writeLE m a n v) b = Memory.read m b := by
  induction n generalizing m a v with
  | zero => rfl
  | succ n ih =>
    rw [Memory.writeLE, ih, Memory.read_write_other]
    · simpa using h 0 (by omega)
    · intro j hj
      have := h (j + 1) (by omega)
      rwa [BitVec.ofNat_add, BitVec.add_comm (BitVec.ofNat 32 j), ← BitVec.add_assoc] at this

/-- Placing an instruction keeps the canonical form of memory. -/
theorem State.placeInstruction_wf (s : State) (nbits w : Nat) (h : Memory.wf s.mem) :
    Memory.wf (s.placeInstruction nbits w).mem :=
  Memory.writeLE_wf _ _ _ _ h

end Sys2Proof.Machine
end

