-- ==== Sys2Proof/Laws/State.lean ====
section
/-! SUPPORT. What each update of the state does to each field, so that no proof unfolds an update. -/

namespace Sys2Proof.Machine

/-! ### `complete` -/

@[simp] theorem State.complete_regs (s : State) : s.complete.regs = s.regs := rfl
@[simp] theorem State.complete_cc (s : State) : s.complete.cc = s.cc := rfl
@[simp] theorem State.complete_pc (s : State) : s.complete.pc = s.pc + 2#32 := rfl
@[simp] theorem State.complete_costat (s : State) : s.complete.costat = s.costat := rfl
@[simp] theorem State.complete_fplow (s : State) : s.complete.fplow = s.fplow := rfl
@[simp] theorem State.complete_fpa0 (s : State) : s.complete.fpa0 = s.fpa0 := rfl
@[simp] theorem State.complete_fpa1 (s : State) : s.complete.fpa1 = s.fpa1 := rfl
@[simp] theorem State.complete_mem (s : State) : s.complete.mem = s.mem := rfl
@[simp] theorem State.complete_params (s : State) : s.complete.params = s.params := rfl
@[simp] theorem State.complete_draws (s : State) : s.complete.draws = s.draws + 1 := rfl

/-! ### `writeReg` -/

@[simp] theorem State.writeReg_cc (s : State) (i : RegNum) (v : Word) : (s.writeReg i v).cc = s.cc := by
  unfold State.writeReg; split <;> rfl
@[simp] theorem State.writeReg_pc (s : State) (i : RegNum) (v : Word) : (s.writeReg i v).pc = s.pc := by
  unfold State.writeReg; split <;> rfl
@[simp] theorem State.writeReg_costat (s : State) (i : RegNum) (v : Word) : (s.writeReg i v).costat = s.costat := by
  unfold State.writeReg; split <;> rfl
@[simp] theorem State.writeReg_fplow (s : State) (i : RegNum) (v : Word) : (s.writeReg i v).fplow = s.fplow := by
  unfold State.writeReg; split <;> rfl
@[simp] theorem State.writeReg_fpa0 (s : State) (i : RegNum) (v : Word) : (s.writeReg i v).fpa0 = s.fpa0 := by
  unfold State.writeReg; split <;> rfl
@[simp] theorem State.writeReg_fpa1 (s : State) (i : RegNum) (v : Word) : (s.writeReg i v).fpa1 = s.fpa1 := by
  unfold State.writeReg; split <;> rfl
@[simp] theorem State.writeReg_mem (s : State) (i : RegNum) (v : Word) : (s.writeReg i v).mem = s.mem := by
  unfold State.writeReg; split <;> rfl
@[simp] theorem State.writeReg_params (s : State) (i : RegNum) (v : Word) : (s.writeReg i v).params = s.params := by
  unfold State.writeReg; split <;> rfl
@[simp] theorem State.writeReg_draws (s : State) (i : RegNum) (v : Word) : (s.writeReg i v).draws = s.draws := by
  unfold State.writeReg; split <;> rfl

/-! ### `setFpa` -/

@[simp] theorem State.setFpa_regs (s : State) (k : Accumulator) (y : B64) : (s.setFpa k y).regs = s.regs := by
  cases k <;> rfl
@[simp] theorem State.setFpa_cc (s : State) (k : Accumulator) (y : B64) : (s.setFpa k y).cc = s.cc := by
  cases k <;> rfl
@[simp] theorem State.setFpa_pc (s : State) (k : Accumulator) (y : B64) : (s.setFpa k y).pc = s.pc := by
  cases k <;> rfl
@[simp] theorem State.setFpa_costat (s : State) (k : Accumulator) (y : B64) : (s.setFpa k y).costat = s.costat := by
  cases k <;> rfl
@[simp] theorem State.setFpa_fplow (s : State) (k : Accumulator) (y : B64) : (s.setFpa k y).fplow = s.fplow := by
  cases k <;> rfl
@[simp] theorem State.setFpa_mem (s : State) (k : Accumulator) (y : B64) : (s.setFpa k y).mem = s.mem := by
  cases k <;> rfl
@[simp] theorem State.setFpa_params (s : State) (k : Accumulator) (y : B64) : (s.setFpa k y).params = s.params := by
  cases k <;> rfl
@[simp] theorem State.setFpa_draws (s : State) (k : Accumulator) (y : B64) : (s.setFpa k y).draws = s.draws := by
  cases k <;> rfl
@[simp] theorem State.setFpa_fpa_same (s : State) (k : Accumulator) (y : B64) : (s.setFpa k y).fpa k = y := by
  cases k <;> rfl
theorem State.setFpa_fpa_other (s : State) (k j : Accumulator) (y : B64) (h : j ≠ k) :
    (s.setFpa k y).fpa j = s.fpa j := by
  cases k <;> cases j <;> simp_all [State.setFpa, State.fpa]

/-! ### `writeCostat` -/

@[simp] theorem State.writeCostat_regs (s : State) (v : Word) : (s.writeCostat v).regs = s.regs := by
  unfold State.writeCostat; dsimp only; split <;> rfl
@[simp] theorem State.writeCostat_cc (s : State) (v : Word) : (s.writeCostat v).cc = s.cc := by
  unfold State.writeCostat; dsimp only; split <;> rfl
@[simp] theorem State.writeCostat_pc (s : State) (v : Word) : (s.writeCostat v).pc = s.pc := by
  unfold State.writeCostat; dsimp only; split <;> rfl
@[simp] theorem State.writeCostat_mem (s : State) (v : Word) : (s.writeCostat v).mem = s.mem := by
  unfold State.writeCostat; dsimp only; split <;> rfl
@[simp] theorem State.writeCostat_params (s : State) (v : Word) : (s.writeCostat v).params = s.params := by
  unfold State.writeCostat; dsimp only; split <;> rfl
@[simp] theorem State.writeCostat_draws (s : State) (v : Word) : (s.writeCostat v).draws = s.draws := by
  unfold State.writeCostat; dsimp only; split <;> rfl
@[simp] theorem State.writeCostat_costat (s : State) (v : Word) :
    (s.writeCostat v).costat = v &&& costatImplMask s.params := by
  unfold State.writeCostat; dsimp only; split <;> rfl

/-! ### `loadFpa` and `storeResult` -/

@[simp] theorem State.loadFpa_regs (s : State) (k : Accumulator) (y : B64) : (s.loadFpa k y).regs = s.regs := by
  cases k <;> rfl
@[simp] theorem State.loadFpa_cc (s : State) (k : Accumulator) (y : B64) : (s.loadFpa k y).cc = s.cc := by
  cases k <;> rfl
@[simp] theorem State.loadFpa_pc (s : State) (k : Accumulator) (y : B64) : (s.loadFpa k y).pc = s.pc := by
  cases k <;> rfl
@[simp] theorem State.loadFpa_costat (s : State) (k : Accumulator) (y : B64) : (s.loadFpa k y).costat = s.costat := by
  cases k <;> rfl
@[simp] theorem State.loadFpa_mem (s : State) (k : Accumulator) (y : B64) : (s.loadFpa k y).mem = s.mem := by
  cases k <;> rfl
@[simp] theorem State.loadFpa_params (s : State) (k : Accumulator) (y : B64) : (s.loadFpa k y).params = s.params := by
  cases k <;> rfl
@[simp] theorem State.loadFpa_draws (s : State) (k : Accumulator) (y : B64) : (s.loadFpa k y).draws = s.draws := by
  cases k <;> rfl
@[simp] theorem State.loadFpa_fplow (s : State) (k : Accumulator) (y : B64) : (s.loadFpa k y).fplow = s.fplowAfterCoset := rfl
@[simp] theorem State.loadFpa_fpa_same (s : State) (k : Accumulator) (y : B64) : (s.loadFpa k y).fpa k = y := by
  cases k <;> rfl
theorem State.loadFpa_fpa_other (s : State) (k j : Accumulator) (y : B64) (h : j ≠ k) :
    (s.loadFpa k y).fpa j = s.fpa j := by
  cases k <;> cases j <;> simp_all [State.loadFpa, State.setFpa, State.fpa]
theorem State.storeResult_eq (s : State) (k : Accumulator) (y : B64) : s.storeResult k y = s.loadFpa k (s.kept y) := rfl

/-! ### `deliverLong`, `deliverShort` and `deliver` -/

@[simp] theorem State.deliverLong_pc (s : State) (y : B64) (dst : RegNum) : (s.deliverLong y dst).pc = s.pc := by
  simp [State.deliverLong]
@[simp] theorem State.deliverShort_pc (s : State) (w : B32) (dst : RegNum) : (s.deliverShort w dst).pc = s.pc := by
  simp [State.deliverShort]
@[simp] theorem State.deliver_pc (s : State) (y : B64) (dst : RegNum) : (s.deliver y dst).pc = s.pc := by
  unfold State.deliver; split <;> simp
@[simp] theorem State.deliverLong_costat (s : State) (y : B64) (dst : RegNum) : (s.deliverLong y dst).costat = s.costat := by
  simp [State.deliverLong]
@[simp] theorem State.deliverShort_costat (s : State) (w : B32) (dst : RegNum) : (s.deliverShort w dst).costat = s.costat := by
  simp [State.deliverShort]
@[simp] theorem State.deliver_costat (s : State) (y : B64) (dst : RegNum) : (s.deliver y dst).costat = s.costat := by
  unfold State.deliver; split <;> simp
@[simp] theorem State.deliverLong_fpa0 (s : State) (y : B64) (dst : RegNum) : (s.deliverLong y dst).fpa0 = s.fpa0 := by
  simp [State.deliverLong]
@[simp] theorem State.deliverShort_fpa0 (s : State) (w : B32) (dst : RegNum) : (s.deliverShort w dst).fpa0 = s.fpa0 := by
  simp [State.deliverShort]
@[simp] theorem State.deliver_fpa0 (s : State) (y : B64) (dst : RegNum) : (s.deliver y dst).fpa0 = s.fpa0 := by
  unfold State.deliver; split <;> simp
@[simp] theorem State.deliverLong_fpa1 (s : State) (y : B64) (dst : RegNum) : (s.deliverLong y dst).fpa1 = s.fpa1 := by
  simp [State.deliverLong]
@[simp] theorem State.deliverShort_fpa1 (s : State) (w : B32) (dst : RegNum) : (s.deliverShort w dst).fpa1 = s.fpa1 := by
  simp [State.deliverShort]
@[simp] theorem State.deliver_fpa1 (s : State) (y : B64) (dst : RegNum) : (s.deliver y dst).fpa1 = s.fpa1 := by
  unfold State.deliver; split <;> simp
@[simp] theorem State.deliverLong_mem (s : State) (y : B64) (dst : RegNum) : (s.deliverLong y dst).mem = s.mem := by
  simp [State.deliverLong]
@[simp] theorem State.deliverShort_mem (s : State) (w : B32) (dst : RegNum) : (s.deliverShort w dst).mem = s.mem := by
  simp [State.deliverShort]
@[simp] theorem State.deliver_mem (s : State) (y : B64) (dst : RegNum) : (s.deliver y dst).mem = s.mem := by
  unfold State.deliver; split <;> simp
@[simp] theorem State.deliverLong_params (s : State) (y : B64) (dst : RegNum) : (s.deliverLong y dst).params = s.params := by
  simp [State.deliverLong]
@[simp] theorem State.deliverShort_params (s : State) (w : B32) (dst : RegNum) : (s.deliverShort w dst).params = s.params := by
  simp [State.deliverShort]
@[simp] theorem State.deliver_params (s : State) (y : B64) (dst : RegNum) : (s.deliver y dst).params = s.params := by
  unfold State.deliver; split <;> simp
@[simp] theorem State.deliverLong_draws (s : State) (y : B64) (dst : RegNum) : (s.deliverLong y dst).draws = s.draws := by
  simp [State.deliverLong]
@[simp] theorem State.deliverShort_draws (s : State) (w : B32) (dst : RegNum) : (s.deliverShort w dst).draws = s.draws := by
  simp [State.deliverShort]
@[simp] theorem State.deliver_draws (s : State) (y : B64) (dst : RegNum) : (s.deliver y dst).draws = s.draws := by
  unfold State.deliver; split <;> simp
@[simp] theorem State.deliverLong_regs (s : State) (y : B64) (dst : RegNum) :
    (s.deliverLong y dst).regs = (s.writeReg dst (y.extractLsb' 32 32)).regs := rfl
@[simp] theorem State.deliverLong_fplow (s : State) (y : B64) (dst : RegNum) :
    (s.deliverLong y dst).fplow = y.extractLsb' 0 32 := rfl
@[simp] theorem State.deliverLong_cc (s : State) (y : B64) (dst : RegNum) :
    (s.deliverLong y dst).cc = fpCcLong (y.extractLsb' 32 32) (y.extractLsb' 0 32) := rfl
@[simp] theorem State.deliverShort_regs (s : State) (w : B32) (dst : RegNum) :
    (s.deliverShort w dst).regs = (s.writeReg dst w).regs := rfl
@[simp] theorem State.deliverShort_fplow (s : State) (w : B32) (dst : RegNum) :
    (s.deliverShort w dst).fplow = Config.freeFplow s.draws := rfl
@[simp] theorem State.deliverShort_cc (s : State) (w : B32) (dst : RegNum) :
    (s.deliverShort w dst).cc = fpCcShort w := rfl

/-! ### What reading depends on -/

/-- Reading a register depends on the register file alone. -/
theorem State.readReg_congr (s t : State) (i : RegNum) (h : s.regs = t.regs) : s.readReg i = t.readReg i := by
  simp [State.readReg, h]

@[simp] theorem State.complete_readReg (s : State) (i : RegNum) : s.complete.readReg i = s.readReg i := rfl
@[simp] theorem State.complete_fpa (s : State) (k : Accumulator) : s.complete.fpa k = s.fpa k := by
  cases k <;> rfl

theorem State.fpa_congr (s t : State) (k : Accumulator) (h0 : s.fpa0 = t.fpa0) (h1 : s.fpa1 = t.fpa1) :
    s.fpa k = t.fpa k := by
  cases k <;> assumption

end Sys2Proof.Machine
end

