-- ==== Sys2Proof/Laws/Ops.lean ====
section
/-! SUPPORT. For each shared operation of the machine, what it can do, said once. -/

namespace Sys2Proof.Machine

/-! ### Registers -/

@[simp] theorem State.readReg_zero (s : State) : s.readReg 0#4 = 0#32 := rfl

theorem State.readReg_writeReg_same (s : State) (i : RegNum) (v : Word) (h : i ≠ 0#4) :
    (s.writeReg i v).readReg i = v := by
  simp [State.readReg, State.writeReg, h]

theorem State.readReg_writeReg_other (s : State) (i j : RegNum) (v : Word) (h : j ≠ i) :
    (s.writeReg i v).readReg j = s.readReg j := by
  have hn : i.toNat ≠ j.toNat := fun e => h (BitVec.eq_of_toNat_eq e.symm)
  unfold State.readReg State.writeReg
  split
  · rfl
  · split
    · rfl
    · simp [Vector.getElem_set_ne _ _ hn]

@[simp] theorem State.writeReg_zero (s : State) (v : Word) : s.writeReg 0#4 v = s := rfl

/-- A register write leaves the slot of r[0] alone. -/
theorem State.writeReg_regs_zero (s : State) (i : RegNum) (v : Word) : (s.writeReg i v).regs[0] = s.regs[0] := by
  unfold State.writeReg
  split
  · rfl
  · rename_i h
    have hn : i.toNat ≠ 0 := fun e => h (BitVec.eq_of_toNat_eq (by simpa using e))
    simp [Vector.getElem_set_ne _ _ hn]

/-! ### The availability check -/

theorem State.ifAvailable_of_available (s : State) (i : Instr) (r : Host.Outcome State Fault Refusal)
    (h : s.available = true) : s.ifAvailable i r = r := by
  simp [State.ifAvailable, h]

theorem State.ifAvailable_of_not_available (s : State) (i : Instr) (r : Host.Outcome State Fault Refusal)
    (h : s.available = false) : s.ifAvailable i r = .fault (.coprocessorUnavailable (encode i) s.costat) := by
  simp [State.ifAvailable, h]

/-- An access that goes on has found the unit available. -/
theorem State.ifAvailable_next_iff (s : State) (i : Instr) (r : Host.Outcome State Fault Refusal) (t : State) :
    s.ifAvailable i r = .next t ↔ s.available = true ∧ r = .next t := by
  unfold State.ifAvailable
  split <;> simp_all

/-! ### The fetch -/

/-- A fetch that answers a word found `pc` even and both bytes stored, the low byte at `pc`. -/
theorem State.fetchWord_ok (s : State) (w : InstrWord) (h : s.fetchWord = .ok w) :
    s.pc.getLsbD 0 = false ∧ ∃ low high,
      Memory.read s.mem s.pc.toNat = some low ∧ Memory.read s.mem (s.pc + 1#32).toNat = some high ∧
      w = high ++ low := by
  unfold State.fetchWord at h
  split at h
  · cases h
  · rename_i hpc
    refine ⟨by simpa using hpc, ?_⟩
    simp only [Memory.readLE] at h
    cases h1 : Memory.read s.mem s.pc.toNat <;> cases h2 : Memory.read s.mem (s.pc + 1#32).toNat <;>
      simp_all only [reduceCtorEq]
    rename_i low high
    refine ⟨low, high, rfl, rfl, ?_⟩
    injection h with h
    rw [← h]
    apply BitVec.eq_of_toNat_eq
    rw [BitVec.toNat_append, BitVec.toNat_ofNat, ← Nat.shiftLeft_add_eq_or_of_lt low.isLt, Nat.shiftLeft_eq]
    omega

/-- A fetch that finds `pc` even and both bytes stored answers the word they make. -/
theorem State.fetchWord_of_bytes (s : State) (low high : Byte) (hpc : s.pc.getLsbD 0 = false)
    (hl : Memory.read s.mem s.pc.toNat = some low) (hh : Memory.read s.mem (s.pc + 1#32).toNat = some high) :
    s.fetchWord = .ok (high ++ low) := by
  have h2 : Memory.readLE s.mem s.pc 2 = some (low.toNat + 256 * (high.toNat + 256 * 0)) := by
    simp only [Memory.readLE, hl, hh]
  cases hf : s.fetchWord with
  | ok w =>
    obtain ⟨-, l, h, e1, e2, rfl⟩ := State.fetchWord_ok s w hf
    rw [hl, Option.some.injEq] at e1
    rw [hh, Option.some.injEq] at e2
    rw [e1, e2]
  | error f =>
    rw [State.fetchWord, hpc, h2] at hf
    cases hf

/-! ### Operands and results -/

theorem State.operand_long (s : State) (src : RegNum) (h : s.long = true) :
    s.operand src = s.readReg src ++ s.fplow := by
  simp [State.operand, h]

theorem State.operand_short (s : State) (src : RegNum) (h : s.long = false) :
    s.operand src = widen s.draws (s.readReg src) := by
  simp [State.operand, h]

theorem State.deliver_long (s : State) (y : B64) (dst : RegNum) (h : s.long = true) :
    s.deliver y dst = s.deliverLong y dst := by
  simp [State.deliver, h]

theorem State.deliver_short (s : State) (y : B64) (dst : RegNum) (h : s.long = false) :
    s.deliver y dst = s.deliverShort (narrow s.roundMode s.draws y) dst := by
  simp [State.deliver, h]

/-- A delivery leaves the slot of r[0] alone. -/
theorem State.deliver_regs_zero (s : State) (y : B64) (dst : RegNum) : (s.deliver y dst).regs[0] = s.regs[0] := by
  unfold State.deliver
  split <;> simp [State.writeReg_regs_zero]

theorem State.kept_long (s : State) (y : B64) (h : s.long = true) : s.kept y = y := by
  simp [State.kept, h]

theorem State.kept_default (s : State) (y : B64) (h : s.params.shortRoundsAccumulator = false) : s.kept y = y := by
  simp [State.kept, h]

end Sys2Proof.Machine
end

