-- ==== Sys2Proof/Safety.lean ====
section
/-! DEFINITION. What every state of a run keeps, in the terms the statements use. -/

namespace Sys2Proof.Machine

/-- The bits of COSTAT outside `COSTAT_IMPL_MASK` read as 0 (10_state.md R13; D14). -/
abbrev State.costatWithinMask (s : State) : Prop :=
  s.costat &&& ~~~(costatImplMask s.params) = 0#32

/-- Bit 0 of `pc` is 0 (20_memory.md R35; D16). -/
abbrev State.pcAligned (s : State) : Prop :=
  s.pc.getLsbD 0 = false

/-- The slot of r[0] holds zero, as reading r[0] does (10_state.md R20). -/
abbrev State.regZeroHeld (s : State) : Prop :=
  s.regs[0] = 0#32

/-- What every run from reset keeps: memory in its canonical form, `pc` aligned, COSTAT within its storage, r[0] zero. -/
structure State.Inv (s : State) : Prop where
  memory : Memory.wf s.mem
  pc : s.pcAligned
  costat : s.costatWithinMask
  regZero : s.regZeroHeld

/-- An outcome with its next state changed by `f`; a stop stays as it is. -/
def mapNext (f : State → State) : Host.Outcome State Fault Refusal → Host.Outcome State Fault Refusal
  | .next t => .next (f t)
  | .fault r => .fault r
  | .refused r => .refused r

end Sys2Proof.Machine

namespace Sys2Proof.Config

/-- `result` is what `ROUND_MODE` picks for the number `exact`, as against the number `z` of the format (40_numerics.md R66); `even`
says that the last mantissa bit of `result` is 0. The modes beside nearest-even are IEEE 754's (notes/assumptions/7.md). -/
def RoundMode.Picks (m : RoundMode) (exact result : ℝ) (even : Prop) (z : ℝ) : Prop :=
  match m with
  | .nearestEven => |exact - result| ≤ |exact - z| ∧ (|exact - result| = |exact - z| → z ≠ result → even)
  | .nearestAway => |exact - result| ≤ |exact - z| ∧ (|exact - result| = |exact - z| → z ≠ result → |z| < |result|)
  | .towardZero =>
    (0 ≤ exact → result ≤ exact ∧ (z ≤ exact → z ≤ result)) ∧ (exact ≤ 0 → exact ≤ result ∧ (exact ≤ z → result ≤ z))
  | .towardPositive => exact ≤ result ∧ (exact ≤ z → result ≤ z)
  | .towardNegative => result ≤ exact ∧ (z ≤ exact → z ≤ result)

/-- Does `n / d`, the magnitude of a number of the given sign, round to `power` or more, the power of two above the largest number
of the format (40_numerics.md R65, R67)? `step` is the distance between the largest numbers. -/
def RoundMode.overflows (m : RoundMode) (negative : Bool) (power step n d : Nat) : Bool :=
  let halfWay := decide ((2 * power - step) * d ≤ 2 * n)
  let reached := decide (power * d ≤ n)
  let aboveLargest := decide ((power - step) * d < n)
  match m with
  | .nearestEven | .nearestAway => halfWay
  | .towardZero => reached
  | .towardPositive => if negative then reached else aboveLargest
  | .towardNegative => if negative then aboveLargest else reached

end Sys2Proof.Config

namespace Sys2Proof

/-- The other accumulator, `FPA[1 - fr]` (10_state.md R18). -/
def Accumulator.other : Accumulator → Accumulator
  | .fpa0 => .fpa1
  | .fpa1 => .fpa0

/-- The accumulator an instruction names with its `fr` bit, where it names one that the spec gives a meaning
(30_encoding.md R45). -/
def Instr.accumulator : Instr → Option Accumulator
  | .cogetCostat _ | .cogetFplow _ | .cogetUndefined _ _ | .cosetCostat _ | .cosetFplow _ => none
  | .cogetFpa _ k | .cogetFpneg _ k | .cogetFpabs _ k | .cosetFpa _ k | .cosetFpint _ k | .cosetFpsqrt _ k
  | .cosetFpadd _ k | .cosetFpsub _ k | .cosetFpmul _ k | .cosetFpdiv _ k => some k

end Sys2Proof
end

