-- ==== Sys2Proof/Laws/Rounding.lean ====
section
/-! SUPPORT. What `roundMagnitude` answers: of all finite numbers of the format the one that `ROUND_MODE` picks for the fraction,
and where it overflows (40_numerics.md R66). -/

namespace Sys2Proof.Machine

open Config (RoundMode)

/-- The magnitude, in units, of the format's number whose exponent and mantissa fields are `bits` (R61, R62). -/
def unitsOf (mBits bits : Nat) : Nat :=
  if bits / 2 ^ mBits = 0 then bits % 2 ^ mBits
  else (2 ^ mBits + bits % 2 ^ mBits) * 2 ^ (bits / 2 ^ mBits - 1)

/-- The magnitude of a pattern whose exponent field is above a rounded significand `r`, carry included. -/
theorem unitsOf_scaled (mBits q r : Nat) (hlow : q = 0 ∨ 2 ^ mBits ≤ r) (hhigh : r ≤ 2 ^ (mBits + 1)) :
    unitsOf mBits (q * 2 ^ mBits + r) = r * 2 ^ q := by
  have hp : 0 < 2 ^ mBits := Nat.two_pow_pos mBits
  have h2 : 2 ^ (mBits + 1) = 2 * 2 ^ mBits := by rw [Nat.pow_succ]; omega
  unfold unitsOf
  generalize 2 ^ mBits = p at *
  rw [Nat.add_comm (q * p), Nat.add_mul_div_right _ _ hp, Nat.add_mul_mod_self_right]
  rcases Nat.lt_or_ge r p with hr | hr
  · have hq : q = 0 := by omega
    subst hq
    simp [Nat.div_eq_of_lt hr, Nat.mod_eq_of_lt hr]
  · rcases Nat.eq_or_lt_of_le (h2 ▸ hhigh) with hr2 | hr2
    · subst hr2
      rw [Nat.mul_div_cancel _ hp, Nat.mul_mod_left, if_neg (by omega), show 2 + q - 1 = q + 1 by omega, Nat.pow_succ]
      ring
    · have hd : r / p = 1 := by
        rw [Nat.div_eq_iff hp]; omega
      have hm : r % p = r - p := by
        rw [Nat.mod_eq_sub_mod hr, Nat.mod_eq_of_lt (by omega)]
      rw [hd, hm, if_neg (by omega), show 1 + q - 1 = q by omega, show p + (r - p) = r by omega]

/-- A magnitude of at least `2^(mBits + q)` is a whole number of steps `2^q`. -/
theorem unitsOf_step (mBits q bits : Nat) (h : q = 0 ∨ 2 ^ (mBits + q) ≤ unitsOf mBits bits) :
    ∃ c, unitsOf mBits bits = c * 2 ^ q := by
  rcases Nat.eq_zero_or_pos q with hq | hq
  · exact ⟨unitsOf mBits bits, by simp [hq]⟩
  · have h : 2 ^ (mBits + q) ≤ unitsOf mBits bits := by omega
    unfold unitsOf at *
    have hmod := Nat.mod_lt bits (Nat.two_pow_pos mBits)
    split at h
    · have : 2 ^ mBits ≤ 2 ^ (mBits + q) := Nat.pow_le_pow_right (by omega) (by omega)
      omega
    · rename_i he
      rw [if_neg he]
      generalize bits / 2 ^ mBits - 1 = e at *
      have hlt : (2 ^ mBits + bits % 2 ^ mBits) * 2 ^ e < 2 ^ (mBits + 1 + e) := by
        rw [Nat.pow_add, Nat.pow_succ]
        exact Nat.mul_lt_mul_of_pos_right (by omega) (Nat.two_pow_pos e)
      have hqe : q ≤ e := by
        have := (Nat.pow_lt_pow_iff_right (a := 2) (by omega)).mp (Nat.lt_of_le_of_lt h hlt)
        omega
      refine ⟨(2 ^ mBits + bits % 2 ^ mBits) * 2 ^ (e - q), ?_⟩
      rw [Nat.mul_assoc, ← Nat.pow_add]
      congr 2
      omega

/-- The step that rounding uses: the fraction is below `2^(mBits + q + 1)` units, and at least `2^(mBits + q)` where the step
is more than one unit. -/
theorem step_bounds (mBits n d : Nat) (hd : 0 < d) :
    let q := Nat.log2 (n / d) - mBits
    n < 2 ^ (mBits + q + 1) * d ∧ (q = 0 ∨ 2 ^ (mBits + q) * d ≤ n) := by
  intro q
  have hlt : n / d < 2 ^ (Nat.log2 (n / d) + 1) := Nat.lt_log2_self
  refine ⟨?_, ?_⟩
  · have : n / d < 2 ^ (mBits + q + 1) :=
      Nat.lt_of_lt_of_le hlt (Nat.pow_le_pow_right (by omega) (by omega))
    exact (Nat.div_lt_iff_lt_mul hd).mp this
  · rcases Nat.eq_zero_or_pos q with hq | hq
    · exact .inl hq
    · right
      have hne : n / d ≠ 0 := by
        intro e
        have : q = 0 := by simp [q, e]
        omega
      have hle : 2 ^ (mBits + q) ≤ n / d := by
        have := Nat.log2_self_le hne
        rwa [show Nat.log2 (n / d) = mBits + q by omega] at this
      exact (Nat.le_div_iff_mul_le hd).mp hle

/-- The rounded significand: between `2^mBits` (or 0 in the lowest step) and `2^(mBits + 1)`. -/
theorem significand_bounds (m : RoundMode) (s : Bool) (mBits n d : Nat) (hd : 0 < d) :
    let q := Nat.log2 (n / d) - mBits
    let r := roundWhole m s n (d * 2 ^ q)
    (q = 0 ∨ 2 ^ mBits ≤ r) ∧ r ≤ 2 ^ (mBits + 1) := by
  intro q r
  obtain ⟨hlt, hge⟩ := step_bounds mBits n d hd
  have hD : 0 < d * 2 ^ q := Nat.mul_pos hd (Nat.two_pow_pos q)
  constructor
  · refine hge.imp_right fun h => (roundWhole_between m s n _ _ hD).1 ?_
    calc 2 ^ mBits * (d * 2 ^ q) = 2 ^ (mBits + q) * d := by rw [Nat.pow_add]; ring
      _ ≤ n := h
  · apply (roundWhole_between m s n _ _ hD).2
    calc n ≤ 2 ^ (mBits + q + 1) * d := hlt.le
      _ = 2 ^ (mBits + 1) * (d * 2 ^ q) := by rw [show mBits + q + 1 = mBits + 1 + q by omega, Nat.pow_add]; ring

/-- In round to nearest the whole number is nearest among all whole numbers. -/
theorem roundWhole_nearest (m : RoundMode) (s : Bool) (n d c : Nat) (hd : 0 < d) (hm : m.isNearest = true) :
    |(n : Int) - roundWhole m s n d * d| ≤ |(n : Int) - c * d| := by
  have half : 2 * n ≤ (2 * roundWhole m s n d + 1) * d ∧ 2 * (roundWhole m s n d * d) ≤ 2 * n + d := by
    cases m with
    | nearestEven => exact ⟨(roundHalfEven_spec n d hd).1, (roundHalfEven_spec n d hd).2.1⟩
    | nearestAway => exact ⟨(roundHalfAway_spec n d hd).1.le, (roundHalfAway_spec n d hd).2⟩
    | _ => cases hm
  obtain ⟨h1, h2⟩ := half
  generalize roundWhole m s n d = r at *
  have h1' : (2 : Int) * n ≤ (2 * r + 1) * d := by exact_mod_cast h1
  have h2' : (2 : Int) * (r * d) ≤ 2 * n + d := by exact_mod_cast h2
  have hd' : (0 : Int) < d := by exact_mod_cast hd
  rcases Nat.lt_trichotomy c r with hc | hc | hc
  · have : ((c : Int) + 1) * d ≤ r * d := mul_le_mul_of_nonneg_right (by exact_mod_cast hc) hd'.le
    rw [abs_le]
    constructor
    · have := le_abs_self ((n : Int) - c * d); linarith
    · have := le_abs_self ((n : Int) - c * d); linarith
  · rw [hc]
  · have : ((r : Int) + 1) * d ≤ c * d := mul_le_mul_of_nonneg_right (by exact_mod_cast hc) hd'.le
    have h3 := neg_abs_le ((n : Int) - c * d)
    rw [abs_le]
    constructor <;> linarith

/-- Where another whole number is equally near, the one taken is even, or the larger of the two. -/
theorem roundWhole_tie (m : RoundMode) (s : Bool) (n d c : Nat) (hd : 0 < d) (hne : c ≠ roundWhole m s n d)
    (h : |(n : Int) - roundWhole m s n d * d| = |(n : Int) - c * d|) :
    (m = .nearestEven → roundWhole m s n d % 2 = 0) ∧ (m = .nearestAway → c < roundWhole m s n d) := by
  have hd' : (0 : Int) < d := by exact_mod_cast hd
  constructor
  · rintro rfl
    change c ≠ roundHalfEven n d at hne
    change |(n : Int) - roundHalfEven n d * d| = _ at h
    change roundHalfEven n d % 2 = 0
    obtain ⟨h1, h2, h3⟩ := roundHalfEven_spec n d hd
    apply h3
    generalize roundHalfEven n d = r at *
    have h1' : (2 : Int) * n ≤ (2 * r + 1) * d := by exact_mod_cast h1
    have h2' : (2 : Int) * (r * d) ≤ 2 * n + d := by exact_mod_cast h2
    rcases Nat.lt_or_gt_of_ne hne with hc | hc
    · have hc' : ((c : Int) + 1) * d ≤ r * d := mul_le_mul_of_nonneg_right (by exact_mod_cast hc) hd'.le
      right
      have : (2 : Int) * (r * d) = 2 * n + d := by
        rcases abs_eq_abs.mp h with h | h <;> nlinarith
      exact_mod_cast this
    · have hc' : ((r : Int) + 1) * d ≤ c * d := mul_le_mul_of_nonneg_right (by exact_mod_cast hc) hd'.le
      left
      have : (2 : Int) * n = (2 * r + 1) * d := by
        rcases abs_eq_abs.mp h with h | h <;> nlinarith
      exact_mod_cast this
  · rintro rfl
    change c ≠ roundHalfAway n d at hne
    change |(n : Int) - roundHalfAway n d * d| = _ at h
    change c < roundHalfAway n d
    obtain ⟨h1, -⟩ := roundHalfAway_spec n d hd
    generalize roundHalfAway n d = r at *
    have h1' : (2 : Int) * n < (2 * r + 1) * d := by exact_mod_cast h1
    by_contra hc
    have hc' : ((r : Int) + 1) * d ≤ c * d := mul_le_mul_of_nonneg_right (by exact_mod_cast (by omega : r + 1 ≤ c)) hd'.le
    rcases abs_eq_abs.mp h with h | h <;> nlinarith

/-- A finite rounded magnitude is a rounded significand times the step `2^q`; and a magnitude of the format is a whole number of
steps, or it is below all that the significand can be. -/
theorem roundMagnitude_steps (m : RoundMode) (s : Bool) (mBits eBits n d : Nat) (hd : 0 < d)
    (hfin : roundMagnitude m s mBits eBits n d < (2 ^ eBits - 1) * 2 ^ mBits) :
    ∃ q, roundMagnitude m s mBits eBits n d = q * 2 ^ mBits + roundWhole m s n (d * 2 ^ q) ∧
      unitsOf mBits (roundMagnitude m s mBits eBits n d) = roundWhole m s n (d * 2 ^ q) * 2 ^ q ∧
      ∀ bits, (∃ c, unitsOf mBits bits = c * 2 ^ q) ∨
        (unitsOf mBits bits < 2 ^ mBits * 2 ^ q ∧ 2 ^ mBits * (d * 2 ^ q) ≤ n) := by
  obtain ⟨-, hge⟩ := step_bounds mBits n d hd
  obtain ⟨hlow, hhigh⟩ := significand_bounds m s mBits n d hd
  unfold roundMagnitude at *
  dsimp only at *
  generalize hq : Nat.log2 (n / d) - mBits = q at *
  refine ⟨q, Nat.min_eq_left (by omega), ?_, fun bits => ?_⟩
  · rw [Nat.min_eq_left (by omega), unitsOf_scaled mBits q _ hlow hhigh]
  · by_cases hb : q = 0 ∨ 2 ^ (mBits + q) ≤ unitsOf mBits bits
    · exact .inl (unitsOf_step mBits q bits hb)
    · right
      rw [not_or, not_le] at hb
      rw [← Nat.pow_add]
      refine ⟨hb.2, ?_⟩
      calc 2 ^ mBits * (d * 2 ^ q) = 2 ^ (mBits + q) * d := by rw [Nat.pow_add]; ring
        _ ≤ n := hge.resolve_left hb.1

/-- Rounding passes no number of the format, in any mode. -/
theorem roundMagnitude_between (m : RoundMode) (s : Bool) (mBits eBits n d bits : Nat) (hd : 0 < d)
    (hfin : roundMagnitude m s mBits eBits n d < (2 ^ eBits - 1) * 2 ^ mBits) :
    (unitsOf mBits bits * d ≤ n → unitsOf mBits bits ≤ unitsOf mBits (roundMagnitude m s mBits eBits n d)) ∧
    (n ≤ unitsOf mBits bits * d → unitsOf mBits (roundMagnitude m s mBits eBits n d) ≤ unitsOf mBits bits) := by
  obtain ⟨q, -, hR, hU⟩ := roundMagnitude_steps m s mBits eBits n d hd hfin
  have hD : 0 < d * 2 ^ q := Nat.mul_pos hd (Nat.two_pow_pos q)
  rw [hR]
  rcases hU bits with ⟨c, hc⟩ | ⟨hlt, hle⟩
  · rw [hc, show c * 2 ^ q * d = c * (d * 2 ^ q) by ring]
    exact ⟨fun h => Nat.mul_le_mul_right _ ((roundWhole_between m s n _ c hD).1 h),
      fun h => Nat.mul_le_mul_right _ ((roundWhole_between m s n _ c hD).2 h)⟩
  · refine ⟨fun _ => hlt.le.trans (Nat.mul_le_mul_right _ ((roundWhole_between m s n _ _ hD).1 hle)), fun h => ?_⟩
    have : unitsOf mBits bits * d < 2 ^ mBits * 2 ^ q * d := Nat.mul_lt_mul_of_pos_right hlt hd
    have e : 2 ^ mBits * 2 ^ q * d = 2 ^ mBits * (d * 2 ^ q) := by ring
    omega

/-- Rounding towards zero answers no larger magnitude, and rounding away from zero no smaller one. -/
theorem roundMagnitude_direction (m : RoundMode) (s : Bool) (mBits eBits n d : Nat) (hd : 0 < d)
    (hfin : roundMagnitude m s mBits eBits n d < (2 ^ eBits - 1) * 2 ^ mBits) :
    ((∀ x y, roundWhole m s x y = x / y) → unitsOf mBits (roundMagnitude m s mBits eBits n d) * d ≤ n) ∧
    ((∀ x y, roundWhole m s x y = roundUp x y) → n ≤ unitsOf mBits (roundMagnitude m s mBits eBits n d) * d) := by
  obtain ⟨q, -, hR, -⟩ := roundMagnitude_steps m s mBits eBits n d hd hfin
  have hD : 0 < d * 2 ^ q := Nat.mul_pos hd (Nat.two_pow_pos q)
  rw [hR]
  constructor
  · intro h
    rw [h, show n / (d * 2 ^ q) * 2 ^ q * d = n / (d * 2 ^ q) * (d * 2 ^ q) by ring]
    exact Nat.div_mul_le_self _ _
  · intro h
    rw [h, show roundUp n (d * 2 ^ q) * 2 ^ q * d = roundUp n (d * 2 ^ q) * (d * 2 ^ q) by ring]
    exact (roundUp_spec n _ hD).1

/-- In round to nearest no number of the format is nearer, as long as the magnitude answered is finite. -/
theorem roundMagnitude_nearest (m : RoundMode) (s : Bool) (mBits eBits n d bits : Nat) (hd : 0 < d) (hm : m.isNearest = true)
    (hfin : roundMagnitude m s mBits eBits n d < (2 ^ eBits - 1) * 2 ^ mBits) :
    |(n : Int) - unitsOf mBits (roundMagnitude m s mBits eBits n d) * d| ≤ |(n : Int) - unitsOf mBits bits * d| := by
  obtain ⟨q, -, hR, hU⟩ := roundMagnitude_steps m s mBits eBits n d hd hfin
  have hD : 0 < d * 2 ^ q := Nat.mul_pos hd (Nat.two_pow_pos q)
  have near := fun c => roundWhole_nearest m s n (d * 2 ^ q) c hD hm
  have scaled : ∀ c : Nat, ((c * 2 ^ q : Nat) : Int) * d = c * ((d * 2 ^ q : Nat) : Int) := by
    intro c; push_cast; ring
  rw [hR, scaled]
  rcases hU bits with ⟨c, hc⟩ | ⟨hlt, hle⟩
  · rw [hc, scaled]
    exact near c
  · refine (near (2 ^ mBits)).trans ?_
    have hle2 : unitsOf mBits bits * d ≤ 2 ^ mBits * (d * 2 ^ q) := by
      calc unitsOf mBits bits * d ≤ 2 ^ mBits * 2 ^ q * d := Nat.mul_le_mul_right d hlt.le
        _ = 2 ^ mBits * (d * 2 ^ q) := by ring
    have c1 : ((unitsOf mBits bits * d : Nat) : Int) ≤ ((2 ^ mBits * (d * 2 ^ q) : Nat) : Int) := by exact_mod_cast hle2
    have c2 : ((2 ^ mBits * (d * 2 ^ q) : Nat) : Int) ≤ n := by exact_mod_cast hle
    rw [← Nat.cast_mul, ← Nat.cast_mul, abs_of_nonneg (by linarith), abs_of_nonneg (by linarith)]
    linarith

/-- Where a number of another magnitude is equally near, the one answered has an even last mantissa bit, or is the larger one. -/
theorem roundMagnitude_tie (m : RoundMode) (s : Bool) (mBits eBits n d bits : Nat) (hd : 0 < d) (hm : m.isNearest = true)
    (hp : 0 < mBits) (hfin : roundMagnitude m s mBits eBits n d < (2 ^ eBits - 1) * 2 ^ mBits)
    (hne : unitsOf mBits bits ≠ unitsOf mBits (roundMagnitude m s mBits eBits n d))
    (h : |(n : Int) - unitsOf mBits (roundMagnitude m s mBits eBits n d) * d| = |(n : Int) - unitsOf mBits bits * d|) :
    (m = .nearestEven → roundMagnitude m s mBits eBits n d % 2 = 0) ∧
    (m = .nearestAway → unitsOf mBits bits < unitsOf mBits (roundMagnitude m s mBits eBits n d)) := by
  obtain ⟨q, hr, hR, hU⟩ := roundMagnitude_steps m s mBits eBits n d hd hfin
  have hD : 0 < d * 2 ^ q := Nat.mul_pos hd (Nat.two_pow_pos q)
  have scaled : ∀ c : Nat, ((c * 2 ^ q : Nat) : Int) * d = c * ((d * 2 ^ q : Nat) : Int) := by
    intro c; push_cast; ring
  rw [hR] at hne h
  rw [scaled] at h
  rcases hU bits with ⟨c, hc⟩ | ⟨hlt, hle⟩
  · rw [hc] at hne h
    rw [scaled] at h
    obtain ⟨he, ha⟩ := roundWhole_tie m s n (d * 2 ^ q) c hD (fun e => hne (by rw [e])) h
    constructor
    · intro e
      have := he e
      obtain ⟨k, rfl⟩ : ∃ k, mBits = k + 1 := ⟨mBits - 1, by omega⟩
      rw [hr, Nat.pow_succ, ← Nat.mul_assoc]
      omega
    · intro e
      rw [hR, hc]
      exact Nat.mul_lt_mul_of_pos_right (ha e) (Nat.two_pow_pos q)
  · exfalso
    have h1 := roundWhole_nearest m s n (d * 2 ^ q) (2 ^ mBits) hD hm
    rw [h] at h1
    have hlt2 : unitsOf mBits bits * d < 2 ^ mBits * (d * 2 ^ q) := by
      calc unitsOf mBits bits * d < 2 ^ mBits * 2 ^ q * d := Nat.mul_lt_mul_of_pos_right hlt hd
        _ = 2 ^ mBits * (d * 2 ^ q) := by ring
    have c1 : ((unitsOf mBits bits * d : Nat) : Int) < ((2 ^ mBits * (d * 2 ^ q) : Nat) : Int) := by exact_mod_cast hlt2
    have c2 : ((2 ^ mBits * (d * 2 ^ q) : Nat) : Int) ≤ n := by exact_mod_cast hle
    rw [← Nat.cast_mul, ← Nat.cast_mul, abs_of_nonneg (by linarith), abs_of_nonneg (by linarith)] at h1
    linarith

/-- `roundMagnitude` answers the infinity exactly where the fraction overflows. -/
theorem roundMagnitude_overflow_iff (m : RoundMode) (s : Bool) (mBits eBits n d : Nat) (hd : 0 < d) (he : 2 ≤ eBits) :
    roundMagnitude m s mBits eBits n d = (2 ^ eBits - 1) * 2 ^ mBits ↔
      m.overflows s (2 ^ (mBits + 1) * 2 ^ (2 ^ eBits - 3)) (2 ^ (2 ^ eBits - 3)) n d = true := by
  obtain ⟨hlt, hge⟩ := step_bounds mBits n d hd
  obtain ⟨hlow, hhigh⟩ := significand_bounds m s mBits n d hd
  unfold roundMagnitude
  dsimp only at *
  generalize hq : Nat.log2 (n / d) - mBits = q at *
  have h4 : 4 ≤ 2 ^ eBits := Nat.pow_le_pow_right (n := 2) (by omega) he
  obtain ⟨top, htop⟩ : ∃ top, 2 ^ eBits = top + 3 := ⟨2 ^ eBits - 3, by omega⟩
  have hD : 0 < d * 2 ^ q := Nat.mul_pos hd (Nat.two_pow_pos q)
  have hp : 0 < 2 ^ mBits := Nat.two_pow_pos mBits
  have ht : 0 < 2 ^ top := Nat.two_pow_pos top
  have e1 : 2 ^ (mBits + 1) = 2 * 2 ^ mBits := by rw [Nat.pow_succ]; omega
  rw [htop, show top + 3 - 1 = top + 2 from rfl, show top + 3 - 3 = top from rfl, min_eq_right_iff]
  -- the three thresholds as multiples of the step between the largest numbers
  have d1 : (2 * (2 ^ (mBits + 1) * 2 ^ top) - 2 ^ top) * d = (4 * 2 ^ mBits - 1) * (2 ^ top * d) := by
    rw [e1, show 2 * (2 * 2 ^ mBits * 2 ^ top) = 4 * 2 ^ mBits * 2 ^ top by ring, ← Nat.sub_one_mul, Nat.mul_assoc]
  have d2 : 2 ^ (mBits + 1) * 2 ^ top * d = 2 * 2 ^ mBits * (2 ^ top * d) := by rw [e1, Nat.mul_assoc]
  have d3 : (2 ^ (mBits + 1) * 2 ^ top - 2 ^ top) * d = (2 * 2 ^ mBits - 1) * (2 ^ top * d) := by
    rw [e1, ← Nat.sub_one_mul, Nat.mul_assoc]
  have hT : 0 < 2 ^ top * d := Nat.mul_pos ht hd
  rw [e1] at hhigh
  rcases Nat.lt_trichotomy q top with h | h | h
  · -- the step is smaller: no carry reaches the infinity, and the fraction is below every threshold
    have hq1 : (q + 1) * 2 ^ mBits ≤ top * 2 ^ mBits := Nat.mul_le_mul_right _ h
    have hn : n < 2 ^ mBits * (2 ^ top * d) := by
      calc n < 2 ^ (mBits + q + 1) * d := hlt
        _ ≤ 2 ^ (mBits + top) * d := Nat.mul_le_mul_right _ (Nat.pow_le_pow_right (by omega) (by omega))
        _ = 2 ^ mBits * (2 ^ top * d) := by rw [Nat.pow_add, Nat.mul_assoc]
    have t1 : 2 * (2 ^ mBits * (2 ^ top * d)) ≤ (4 * 2 ^ mBits - 1) * (2 ^ top * d) := by
      rw [← Nat.mul_assoc]; exact Nat.mul_le_mul_right _ (by omega)
    have t2 : 2 ^ mBits * (2 ^ top * d) ≤ 2 * 2 ^ mBits * (2 ^ top * d) := Nat.mul_le_mul_right _ (by omega)
    have t3 : 2 ^ mBits * (2 ^ top * d) ≤ (2 * 2 ^ mBits - 1) * (2 ^ top * d) := Nat.mul_le_mul_right _ (by omega)
    rw [Nat.add_mul] at hq1 ⊢
    refine iff_of_false (by omega) ?_
    cases m <;> cases s <;>
      simp only [RoundMode.overflows, decide_eq_true_eq, if_true, if_false, Bool.false_eq_true, d1, d2, d3] <;> omega
  · subst h
    rw [Nat.mul_comm (2 ^ q) d] at d1 d2 d3
    have carry : (q + 2) * 2 ^ mBits ≤ q * 2 ^ mBits + roundWhole m s n (d * 2 ^ q) ↔
        2 * 2 ^ mBits ≤ roundWhole m s n (d * 2 ^ q) := by rw [Nat.add_mul]; omega
    rw [carry]
    have between := roundWhole_between m s n (d * 2 ^ q)
    have down : (∀ x y, roundWhole m s x y = x / y) →
        (2 * 2 ^ mBits ≤ roundWhole m s n (d * 2 ^ q) ↔ 2 * 2 ^ mBits * (d * 2 ^ q) ≤ n) := fun e => by
      rw [e, Nat.le_div_iff_mul_le hD]
    have up : (∀ x y, roundWhole m s x y = roundUp x y) →
        (2 * 2 ^ mBits ≤ roundWhole m s n (d * 2 ^ q) ↔ (2 * 2 ^ mBits - 1) * (d * 2 ^ q) < n) := fun e => by
      constructor
      · intro hr
        by_contra hn
        have := (between (2 * 2 ^ mBits - 1) hD).2 (by omega)
        omega
      · intro hn
        by_contra hr
        have h1 := (roundUp_spec n (d * 2 ^ q) hD).1
        rw [← e] at h1
        have := h1.trans (Nat.mul_le_mul_right (d * 2 ^ q) (by omega : roundWhole m s n (d * 2 ^ q) ≤ 2 * 2 ^ mBits - 1))
        omega
    have half : ∀ r, 2 * n ≤ (2 * r + 1) * (d * 2 ^ q) → 2 * (r * (d * 2 ^ q)) ≤ 2 * n + d * 2 ^ q →
        (2 * n = (2 * r + 1) * (d * 2 ^ q) → r % 2 = 0) →
        (2 * 2 ^ mBits ≤ r ↔ (4 * 2 ^ mBits - 1) * (d * 2 ^ q) ≤ 2 * n) := fun r h1 h2 h3 => by
      generalize d * 2 ^ q = D at *
      constructor
      · intro hr
        have c1 : 2 * 2 ^ mBits * D ≤ r * D := Nat.mul_le_mul_right D hr
        have c2 : (4 * 2 ^ mBits - 1) * D = 2 * (2 * 2 ^ mBits * D) - D := by rw [Nat.sub_one_mul]; ring_nf
        omega
      · intro hn
        by_contra hr
        have c1 : (2 * r + 1) * D ≤ (4 * 2 ^ mBits - 1) * D := Nat.mul_le_mul_right D (by omega)
        have c2 : (2 * r + 1) * D = (4 * 2 ^ mBits - 1) * D := by omega
        have c3 : 2 * r + 1 = 4 * 2 ^ mBits - 1 := Nat.eq_of_mul_eq_mul_right hD c2
        have := h3 (by omega)
        omega
    cases m with
    | nearestEven =>
      simp only [RoundMode.overflows, decide_eq_true_eq, d1]
      obtain ⟨h1, h2, h3⟩ := roundHalfEven_spec n (d * 2 ^ q) hD
      exact half _ h1 h2 (fun e => h3 (.inl e))
    | nearestAway =>
      simp only [RoundMode.overflows, decide_eq_true_eq, d1]
      obtain ⟨h1, h2⟩ := roundHalfAway_spec n (d * 2 ^ q) hD
      exact half _ h1.le h2 (fun e => absurd e h1.ne)
    | towardZero =>
      simp only [RoundMode.overflows, decide_eq_true_eq, d2]
      exact down fun _ _ => rfl
    | towardPositive =>
      cases s <;> simp only [RoundMode.overflows, decide_eq_true_eq, if_true, if_false, Bool.false_eq_true, d2, d3]
      · exact up fun _ _ => rfl
      · exact down fun _ _ => rfl
    | towardNegative =>
      cases s <;> simp only [RoundMode.overflows, decide_eq_true_eq, if_true, if_false, Bool.false_eq_true, d2, d3]
      · exact down fun _ _ => rfl
      · exact up fun _ _ => rfl
  · -- the step is larger: the significand alone reaches the infinity, and the fraction is above every threshold
    have hn : 2 * 2 ^ mBits * (2 ^ top * d) ≤ n := by
      calc 2 * 2 ^ mBits * (2 ^ top * d) = 2 ^ (mBits + top + 1) * d := by
            rw [Nat.pow_succ, Nat.pow_add]; ring
        _ ≤ 2 ^ (mBits + q) * d := Nat.mul_le_mul_right _ (Nat.pow_le_pow_right (by omega) (by omega))
        _ ≤ n := hge.resolve_left (by omega)
    have hq1 : (top + 1) * 2 ^ mBits ≤ q * 2 ^ mBits := Nat.mul_le_mul_right _ h
    have t1 : (4 * 2 ^ mBits - 1) * (2 ^ top * d) ≤ 2 * (2 * 2 ^ mBits * (2 ^ top * d)) := by
      rw [← Nat.mul_assoc 2]; exact Nat.mul_le_mul_right _ (by omega)
    have t3 : (2 * 2 ^ mBits - 1) * (2 ^ top * d) < 2 * 2 ^ mBits * (2 ^ top * d) :=
      Nat.mul_lt_mul_of_pos_right (by omega) hT
    rw [Nat.add_mul] at hq1 ⊢
    refine iff_of_true (by omega) ?_
    cases m <;> cases s <;>
      simp only [RoundMode.overflows, decide_eq_true_eq, if_true, if_false, Bool.false_eq_true, d1, d2, d3] <;> omega

/-! ### What `ROUND_MODE` picks -/

/-- A number given a sign. -/
def signed (s : Bool) (x : ℝ) : ℝ := if s then -x else x

/-- `Picks`, from what the mode asks of the magnitudes: `w` is the other number, seen from the sign of the exact one. -/
theorem picks_signed (m : RoundMode) (s : Bool) (x r w : ℝ) (even : Prop) (hr : 0 ≤ r)
    (hnear : m.isNearest = true → |x - r| ≤ |x - w|)
    (htie : m.isNearest = true → w ≠ r → |x - r| = |x - w| → (m = .nearestEven → even) ∧ (m = .nearestAway → |w| < |r|))
    (hdown : (∀ a b, roundWhole m s a b = a / b) → r ≤ x)
    (hup : (∀ a b, roundWhole m s a b = roundUp a b) → x ≤ r)
    (hbetween : (w ≤ x → w ≤ r) ∧ (x ≤ w → r ≤ w)) :
    m.Picks (signed s x) (signed s r) even (signed s w) := by
  have flip : ∀ a b : ℝ, |-a - -b| = |a - b| := fun a b => by rw [← abs_neg]; congr 1; ring
  cases m with
  | nearestEven =>
    cases s
    · exact ⟨hnear rfl, fun h hne => (htie rfl hne h).1 rfl⟩
    · simp only [signed, if_true, RoundMode.Picks, flip]
      exact ⟨hnear rfl, fun h hne => (htie rfl (fun e => hne (by rw [e])) h).1 rfl⟩
  | nearestAway =>
    cases s
    · exact ⟨hnear rfl, fun h hne => (htie rfl hne h).2 rfl⟩
    · simp only [signed, if_true, RoundMode.Picks, flip, abs_neg]
      exact ⟨hnear rfl, fun h hne => (htie rfl (fun e => hne (by rw [e])) h).2 rfl⟩
  | towardZero =>
    have hd := hdown fun _ _ => rfl
    cases s <;> simp only [signed, if_true, if_false, Bool.false_eq_true, RoundMode.Picks]
    · exact ⟨fun _ => ⟨hd, hbetween.1⟩, fun h => ⟨by linarith, fun hw => by linarith⟩⟩
    · exact ⟨fun h => ⟨by linarith, fun hw => by linarith⟩,
        fun _ => ⟨by linarith, fun hw => by have := hbetween.1 (by linarith); linarith⟩⟩
  | towardPositive =>
    cases s <;> simp only [signed, if_true, if_false, Bool.false_eq_true, RoundMode.Picks]
    · exact ⟨hup fun _ _ => rfl, hbetween.2⟩
    · exact ⟨by have := hdown fun _ _ => rfl
                linarith, fun hw => by have := hbetween.1 (by linarith); linarith⟩
  | towardNegative =>
    cases s <;> simp only [signed, if_true, if_false, Bool.false_eq_true, RoundMode.Picks]
    · exact ⟨hdown fun _ _ => rfl, hbetween.1⟩
    · exact ⟨by have := hup fun _ _ => rfl
                linarith, fun hw => by have := hbetween.2 (by linarith); linarith⟩

/-- `roundMagnitude`, given its sign, is what the mode picks for the fraction, as against any number of the format of any sign. -/
theorem roundMagnitude_picks (m : RoundMode) (s : Bool) (mBits eBits n d bits : Nat) (zs : Bool) (hd : 0 < d)
    (hp : 0 < mBits) (hfin : roundMagnitude m s mBits eBits n d < (2 ^ eBits - 1) * 2 ^ mBits) :
    m.Picks (signed s ((n : ℝ) / d)) (signed s (unitsOf mBits (roundMagnitude m s mBits eBits n d)))
      (roundMagnitude m s mBits eBits n d % 2 = 0) (signed zs (unitsOf mBits bits)) := by
  have hdR : (0 : ℝ) < d := by exact_mod_cast hd
  have hzero : unitsOf mBits 0 = 0 := by simp [unitsOf]
  -- distances from the fraction, as distances of whole numbers
  have dist : ∀ u : Nat, |(n : ℝ) / d - u| * d = ((|(n : Int) - u * d| : Int) : ℝ) := fun u => by
    rw [← abs_of_pos hdR, ← abs_mul, abs_of_pos hdR, sub_mul, div_mul_cancel₀ _ hdR.ne']
    push_cast
    rfl
  have near : m.isNearest = true → ∀ b, |(n : ℝ) / d - unitsOf mBits (roundMagnitude m s mBits eBits n d)| ≤
      |(n : ℝ) / d - unitsOf mBits b| := fun hm b => by
    rw [← mul_le_mul_iff_left₀ hdR, dist, dist]
    exact_mod_cast roundMagnitude_nearest m s mBits eBits n d b hd hm hfin
  have hx : (0 : ℝ) ≤ (n : ℝ) / d := by positivity
  -- the other number, seen from the sign of the exact one: a magnitude, or below zero
  obtain ⟨w, hw, hcase⟩ : ∃ w : ℝ, signed zs (unitsOf mBits bits) = signed s w ∧
      ((∃ b, w = unitsOf mBits b) ∨ w < 0) := by
    by_cases e : zs = s
    · exact ⟨_, by rw [e], .inl ⟨bits, rfl⟩⟩
    · refine ⟨-(unitsOf mBits bits : ℝ), ?_, ?_⟩
      · cases zs <;> cases s <;> simp [signed] at e ⊢
      · rcases Nat.eq_zero_or_pos (unitsOf mBits bits) with h | h
        · exact .inl ⟨0, by rw [h, hzero]; simp⟩
        · right
          have : (0 : ℝ) < unitsOf mBits bits := by exact_mod_cast h
          linarith
  rw [hw]
  obtain ⟨hdn, hup⟩ := roundMagnitude_direction m s mBits eBits n d hd hfin
  have hR : (0 : ℝ) ≤ unitsOf mBits (roundMagnitude m s mBits eBits n d) := Nat.cast_nonneg _
  refine picks_signed m s _ _ w _ hR ?_ ?_ ?_ ?_ ?_
  · intro hm
    rcases hcase with ⟨b, rfl⟩ | hneg
    · exact near hm b
    · have h0 := near hm 0
      rw [hzero, Nat.cast_zero, sub_zero, abs_of_nonneg hx] at h0
      rw [abs_of_nonneg (by linarith : 0 ≤ (n : ℝ) / d - w)]
      linarith
  · intro hm hne h
    rcases hcase with ⟨b, rfl⟩ | hneg
    · have hZ : |(n : Int) - unitsOf mBits (roundMagnitude m s mBits eBits n d) * d| = |(n : Int) - unitsOf mBits b * d| := by
        have := congrArg (· * (d : ℝ)) h
        simp only [dist] at this
        exact_mod_cast this
      obtain ⟨h1, h2⟩ := roundMagnitude_tie m s mBits eBits n d b hd hm hp hfin (fun e => hne (by rw [e])) hZ
      refine ⟨h1, fun e => ?_⟩
      rw [abs_of_nonneg (Nat.cast_nonneg _), abs_of_nonneg (Nat.cast_nonneg _)]
      exact_mod_cast h2 e
    · exfalso
      have h0 := near hm 0
      rw [hzero, Nat.cast_zero, sub_zero, abs_of_nonneg hx, h, abs_of_nonneg (by linarith : 0 ≤ (n : ℝ) / d - w)] at h0
      linarith
  · intro h
    rw [le_div_iff₀ hdR]
    exact_mod_cast hdn h
  · intro h
    rw [div_le_iff₀ hdR]
    exact_mod_cast hup h
  · rcases hcase with ⟨b, rfl⟩ | hneg
    · rw [le_div_iff₀ hdR, div_le_iff₀ hdR]
      obtain ⟨h1, h2⟩ := roundMagnitude_between m s mBits eBits n d b hd hfin
      exact ⟨fun h => by exact_mod_cast h1 (by exact_mod_cast h), fun h => by exact_mod_cast h2 (by exact_mod_cast h)⟩
    · exact ⟨fun _ => by linarith, fun h => by linarith⟩

/-- Nearer to the lower of two numbers is below the point half-way between them. -/
theorem nearer_iff (y r z : ℝ) (h : r < z) :
    (|y - r| ≤ |y - z| ↔ y ≤ (r + z) / 2) ∧ (|y - z| ≤ |y - r| ↔ (r + z) / 2 ≤ y) := by
  rw [← sq_le_sq, ← sq_le_sq]
  refine ⟨⟨fun e => ?_, fun e => ?_⟩, ⟨fun e => ?_, fun e => ?_⟩⟩ <;> nlinarith

/-- What a mode picks for one exact number it picks for another that lies on the same side of zero, of the result, of the other
number and of the point half-way between these two. -/
theorem picks_transfer (m : RoundMode) (f x r z : ℝ) (even : Prop) (h : m.Picks f r even z)
    (same : ∀ y, y = 0 ∨ y = r ∨ y = z ∨ y = (r + z) / 2 → ((y ≤ f ↔ y ≤ x) ∧ (f ≤ y ↔ x ≤ y))) :
    m.Picks x r even z := by
  obtain ⟨z1, z2⟩ := same 0 (.inl rfl)
  obtain ⟨r1, r2⟩ := same r (.inr (.inl rfl))
  obtain ⟨w1, w2⟩ := same z (.inr (.inr (.inl rfl)))
  obtain ⟨h1, h2⟩ := same _ (.inr (.inr (.inr rfl)))
  have nearest : ∀ tie : Prop, |f - r| ≤ |f - z| ∧ (|f - r| = |f - z| → z ≠ r → tie) →
      |x - r| ≤ |x - z| ∧ (|x - r| = |x - z| → z ≠ r → tie) := by
    rintro tie ⟨hn, ht⟩
    rcases lt_trichotomy r z with hrz | hrz | hrz
    · obtain ⟨a1, a2⟩ := nearer_iff f r z hrz
      obtain ⟨b1, b2⟩ := nearer_iff x r z hrz
      exact ⟨b1.mpr (h2.mp (a1.mp hn)), fun e hne => ht (le_antisymm hn (a2.mpr (h1.mpr (b2.mp e.ge)))) hne⟩
    · exact ⟨by rw [hrz], fun _ hne => absurd hrz.symm hne⟩
    · obtain ⟨a1, a2⟩ := nearer_iff f z r hrz
      obtain ⟨b1, b2⟩ := nearer_iff x z r hrz
      rw [add_comm z r] at a1 a2 b1 b2
      exact ⟨b2.mpr (h1.mp (a2.mp hn)), fun e hne => ht (le_antisymm hn (a1.mpr (h2.mpr (b1.mp e.ge)))) hne⟩
  cases m with
  | nearestEven => exact nearest _ h
  | nearestAway => exact nearest _ h
  | towardZero =>
    exact ⟨fun e => ⟨r1.mp (h.1 (z1.mpr e)).1, fun g => (h.1 (z1.mpr e)).2 (w1.mpr g)⟩,
      fun e => ⟨r2.mp (h.2 (z2.mpr e)).1, fun g => (h.2 (z2.mpr e)).2 (w2.mpr g)⟩⟩
  | towardPositive => exact ⟨r2.mp h.1, fun g => h.2 (w2.mpr g)⟩
  | towardNegative => exact ⟨r1.mp h.1, fun g => h.2 (w1.mpr g)⟩

/-! ### The two formats -/

/-- The magnitude of a long pattern is that of its exponent and mantissa fields. -/
theorem magnitude64_eq_unitsOf (y : B64) : magnitude64 y = unitsOf 52 (y.toNat % 2 ^ 63) := by
  have he := exponent64_toNat y
  have hm := mantissa64_toNat y
  have hy := y.isLt
  have e1 : y.toNat % 2 ^ 63 / 2 ^ 52 = (exponent64 y).toNat := by omega
  have e2 : y.toNat % 2 ^ 63 % 2 ^ 52 = (mantissa64 y).toNat := by omega
  unfold magnitude64 significand64 scale64 unitsOf
  rw [e1, e2]
  by_cases h : exponent64 y = 0#11
  · simp [h]
  · have : (exponent64 y).toNat ≠ 0 := fun e => h (BitVec.eq_of_toNat_eq (by simpa using e))
    rw [if_neg h, if_neg this]

/-- The magnitude of a short pattern is that of its exponent and mantissa fields. -/
theorem magnitude32_eq_unitsOf (x : B32) : magnitude32 x = unitsOf 23 (x.toNat % 2 ^ 31) := by
  have he := exponent32_toNat x
  have hm := mantissa32_toNat x
  have hx := x.isLt
  have e1 : x.toNat % 2 ^ 31 / 2 ^ 23 = (exponent32 x).toNat := by omega
  have e2 : x.toNat % 2 ^ 31 % 2 ^ 23 = (mantissa32 x).toNat := by omega
  unfold magnitude32 unitsOf
  rw [e1, e2]
  by_cases h : exponent32 x = 0#8
  · simp [h]
  · have : (exponent32 x).toNat ≠ 0 := fun e => h (BitVec.eq_of_toNat_eq (by simpa using e))
    rw [if_neg h, if_neg this]

/-- A long pattern is finite when its exponent and mantissa fields are below the infinity's. -/
theorem isFinite64_iff (y : B64) : isFinite64 y = true ↔ y.toNat % 2 ^ 63 < (2 ^ 11 - 1) * 2 ^ 52 := by
  have he := exponent64_toNat y
  have hy := y.isLt
  rw [isFinite64, bne_iff_ne, ne_eq, ← BitVec.toNat_inj, he]
  simp only [BitVec.toNat_ofNat]
  omega

/-- A short pattern is finite when its exponent and mantissa fields are below the infinity's. -/
theorem isFinite32_iff (x : B32) : isFinite32 x = true ↔ x.toNat % 2 ^ 31 < (2 ^ 8 - 1) * 2 ^ 23 := by
  have he := exponent32_toNat x
  have hx := x.isLt
  rw [isFinite32, bne_iff_ne, ne_eq, ← BitVec.toNat_inj, he]
  simp only [BitVec.toNat_ofNat]
  omega

/-- What `round64` answers: the sign asked for, and the fields that `roundMagnitude` answers. -/
theorem round64_spec (m : RoundMode) (s : Bool) (n d : Nat) :
    sign64 (round64 m s n d) = s ∧ (round64 m s n d).toNat % 2 ^ 63 = roundMagnitude m s 52 11 n d ∧
      magnitude64 (round64 m s n d) = unitsOf 52 (roundMagnitude m s 52 11 n d) := by
  have hle := roundMagnitude_le m s 52 11 n d
  have hlt : roundMagnitude m s 52 11 n d < 2 ^ 63 := by omega
  have hp := pack64_toNat s (roundMagnitude m s 52 11 n d)
  have e : (round64 m s n d).toNat % 2 ^ 63 = roundMagnitude m s 52 11 n d := by
    unfold round64
    rw [hp, Nat.mod_eq_of_lt hlt]
    cases s <;> simp <;> omega
  exact ⟨(fields_pack64 s _ hlt).1, e, by rw [magnitude64_eq_unitsOf, e]⟩

/-- What `round32` answers: the sign asked for, and the fields that `roundMagnitude` answers. -/
theorem round32_spec (m : RoundMode) (s : Bool) (n d : Nat) :
    sign32 (round32 m s n d) = s ∧ (round32 m s n d).toNat % 2 ^ 31 = roundMagnitude m s 23 8 n d ∧
      magnitude32 (round32 m s n d) = unitsOf 23 (roundMagnitude m s 23 8 n d) := by
  have hle := roundMagnitude_le m s 23 8 n d
  have hlt : roundMagnitude m s 23 8 n d < 2 ^ 31 := by omega
  have hp := pack32_toNat s (roundMagnitude m s 23 8 n d)
  have e : (round32 m s n d).toNat % 2 ^ 31 = roundMagnitude m s 23 8 n d := by
    unfold round32
    rw [hp, Nat.mod_eq_of_lt hlt]
    cases s <;> simp <;> omega
  exact ⟨(fields_pack32 s _ hlt).1, e, by rw [magnitude32_eq_unitsOf, e]⟩

theorem value64_eq_signed (y : B64) : ((value64 y : Int) : ℝ) = signed (sign64 y) (magnitude64 y) := by
  unfold value64 signed
  split <;> push_cast <;> rfl

theorem value32_eq_signed (x : B32) : ((value32 x : Int) : ℝ) = signed (sign32 x) (magnitude32 x) := by
  unfold value32 signed
  split <;> push_cast <;> rfl

/-- A finite `round64` is the long number that the mode picks for `n / d` of sign `s`. -/
theorem round64_picks (m : RoundMode) (s : Bool) (n d : Nat) (z : B64) (hd : 0 < d)
    (hfin : isFinite64 (round64 m s n d) = true) :
    m.Picks (signed s ((n : ℝ) / d)) (value64 (round64 m s n d)) ((round64 m s n d).getLsbD 0 = false) (value64 z) := by
  obtain ⟨hs, hb, hmag⟩ := round64_spec m s n d
  rw [isFinite64_iff, hb] at hfin
  have heven : ((round64 m s n d).getLsbD 0 = false) = (roundMagnitude m s 52 11 n d % 2 = 0) := by
    rw [← hb, eq_iff_iff]
    simp only [BitVec.getLsbD, Nat.testBit_zero, decide_eq_false_iff_not]
    omega
  rw [value64_eq_signed, value64_eq_signed, hs, hmag, magnitude64_eq_unitsOf z, heven]
  exact roundMagnitude_picks m s 52 11 n d _ _ hd (by omega) hfin

/-- A finite `round32` is the short number that the mode picks for `n / d` of sign `s`. -/
theorem round32_picks (m : RoundMode) (s : Bool) (n d : Nat) (z : B32) (hd : 0 < d)
    (hfin : isFinite32 (round32 m s n d) = true) :
    m.Picks (signed s ((n : ℝ) / d)) (value32 (round32 m s n d)) ((round32 m s n d).getLsbD 0 = false) (value32 z) := by
  obtain ⟨hs, hb, hmag⟩ := round32_spec m s n d
  rw [isFinite32_iff, hb] at hfin
  have heven : ((round32 m s n d).getLsbD 0 = false) = (roundMagnitude m s 23 8 n d % 2 = 0) := by
    rw [← hb, eq_iff_iff]
    simp only [BitVec.getLsbD, Nat.testBit_zero, decide_eq_false_iff_not]
    omega
  rw [value32_eq_signed, value32_eq_signed, hs, hmag, magnitude32_eq_unitsOf z, heven]
  exact roundMagnitude_picks m s 23 8 n d _ _ hd (by omega) hfin

end Sys2Proof.Machine
end

