-- ==== Sys2Proof/Machine/Assembler.lean ====
section
/-! DEFINITION. The assembler's side of the unit: the symbols of float.h, the operand forms of COGET and COSET, decimal
floating literals, and the word that the `F` directive stores and `LIF` loads (30_encoding.md R50 to R56). No step uses
this file. -/

namespace Sys2Proof.FloatH

/-! The symbols of float.h, and COSTAT of hawk.h (30_encoding.md R52). -/

def COSTAT : Nat := 0
def FPLOW : Nat := 1
def FPA0 : Nat := 2
def FPA1 : Nat := 3
def FPENAB : Nat := 0x0002
def FPSEL : Nat := 0x0100
def FPLONG : Nat := 0x1000
def FPSHORT : Nat := 0x0000
def FPENBIT : Nat := 1
def FPNEG : Nat := 2
def FPABS : Nat := 4
def FPINT : Nat := 2
def FPSQRT : Nat := 4
def FPADD : Nat := 6
def FPSUB : Nat := 8
def FPMUL : Nat := 10
def FPDIV : Nat := 12

/-- The symbol that names an accumulator (R52). -/
def accumulator : Accumulator → Nat
  | .fpa0 => FPA0
  | .fpa1 => FPA1

end Sys2Proof.FloatH

namespace Sys2Proof.Machine

/-- `COGET dst,src`: `src` is an expression with a value 0 to 15, the coprocessor register number (R50). -/
def assembleCoget (dst : RegNum) (src : Nat) : Option Instr :=
  if src < 16 then some (cogetOf (BitVec.ofNat 4 src) dst) else none

/-- `COSET src,dst`: the CPU register first, then an expression with a value 0 to 15 (R51; 90_conflicts.md C2). -/
def assembleCoset (src : RegNum) (dst : Nat) : Option Instr :=
  if dst < 16 then some (cosetOf (BitVec.ofNat 4 dst) src) else none

/-- A decimal floating literal: a sign, the digits of the mantissa as one number, how many of them stand after the point, and
the exponent (R56). -/
structure DecimalLiteral where
  negative : Bool
  digits : Nat
  fractionDigits : Nat
  exponent : Int
deriving DecidableEq, Repr

/-- An optional sign: is it `-`, and what follows (R56). -/
def parseSign : List Char → Bool × List Char
  | '-' :: rest => (true, rest)
  | '+' :: rest => (false, rest)
  | rest => (false, rest)

/-- The digits at the front: the number they continue from `value`, how many they are, and what follows (R56). -/
def parseDigits (value count : Nat) : List Char → Nat × Nat × List Char
  | [] => (value, count, [])
  | c :: rest =>
    if c.isDigit then parseDigits (10 * value + (c.toNat - '0'.toNat)) (count + 1) rest
    else (value, count, c :: rest)

/-- The optional exponent, to the end of the literal (R56). -/
def parseExponent : List Char → Option Int
  | [] => some 0
  | c :: rest =>
    if c = 'E' ∨ c = 'e' then
      let (negative, rest) := parseSign rest
      match parseDigits 0 0 rest with
      | (_, 0, _) => none
      | (value, _, []) => some (if negative then -(value : Int) else value)
      | _ => none
    else none

/-- `literal = [sign] digits ["." digits] [("E" | "e") [sign] digits]` (R56). -/
def parseLiteral (text : List Char) : Option DecimalLiteral :=
  let (negative, rest) := parseSign text
  match parseDigits 0 0 rest with
  | (_, 0, _) => none
  | (whole, _, '.' :: rest) =>
    match parseDigits whole 0 rest with
    | (_, 0, _) => none
    | (digits, fractionDigits, rest) =>
      (parseExponent rest).map fun exponent => ⟨negative, digits, fractionDigits, exponent⟩
  | (whole, _, rest) => (parseExponent rest).map fun exponent => ⟨negative, whole, 0, exponent⟩

/-- The short number nearest to a decimal literal, ties to even: the word `F` stores in memory and `LIF` loads into a register
(R54, R55; DESIGN CHOICE of the spec, D26). The spec says nothing of a literal that is or rounds to zero, which keeps its
minus sign here, nor of one beyond the short range, which gives the infinity of its sign here (DESIGN CHOICE, unsafe:
notes/assumptions/28.md). -/
def DecimalLiteral.word (l : DecimalLiteral) : Word :=
  let power := l.exponent - l.fractionDigits
  round32 .nearestEven l.negative (l.digits * 10 ^ power.toNat * 2 ^ 149) (10 ^ (-power).toNat)

/-- The word of `F text` (R54). -/
def fDirective (text : List Char) : Option Word :=
  (parseLiteral text).map DecimalLiteral.word

/-- The word that `LIF dst,text` loads (R55); its expansion into CPU instructions is not in the source. -/
def lifValue (text : List Char) : Option Word :=
  (parseLiteral text).map DecimalLiteral.word

end Sys2Proof.Machine
end

