-- ==== Sys2Proof/Certificates/Slice0/Obligations.lean ====
section
/-! DEFINITION. The statements for the provers. Each names the rule of spec/ it formalises; where a clause is the model's or
the spec's own choice, the docstring says so and names the log entry. -/

open Sys2Proof Sys2Proof.Machine

/-! ### Encoding and decoding -/

/-- Decode and encode agree: decoding the word of a well-formed instruction gives it back, with every operand at every value
(30_encoding.md R41, R42, R44, R45). -/
def Obligations.DecodeOfEncode : Prop :=
  ∀ i : Instr, i.WellFormed → decodeWord (encode i) = .ok i

/-- Encode and decode agree: a word that decodes is the word of the instruction it decodes to, which is well-formed
(30_encoding.md R41, R42, R44, R45). -/
def Obligations.EncodeOfDecode : Prop :=
  ∀ (w : InstrWord) (i : Instr), decodeWord w = .ok i → encode i = w ∧ i.WellFormed

/-- R41 and R42: the instruction word of each coprocessor register number and CPU register, as a number. -/
def Obligations.InstructionWordFormulas : Prop :=
  ∀ (number : CopNum) (reg : RegNum),
    (encode (cogetOf number reg)).toNat = 0x3010 + number.toNat * 2 ^ 8 + reg.toNat ∧
    (encode (cosetOf number reg)).toNat = 0x2010 + number.toNat * 2 ^ 8 + reg.toNat

/-- R41 and R42: the five fields of the instruction word, which fill its sixteen bits: `I[15:12]` 0011 for COGET and 0010 for COSET,
`I[11:9]` op, `I[8]` fr, `I[7:4]` 0001, `I[3:0]` the CPU register; the coprocessor register number is `2 × op + fr`. -/
def Obligations.InstructionFieldLayout : Prop :=
  ∀ (op : BitVec 3) (fr : BitVec 1) (reg : RegNum),
    let number : CopNum := op ++ fr
    let coget := encode (cogetOf number reg)
    let coset := encode (cosetOf number reg)
    number.toNat = 2 * op.toNat + fr.toNat ∧
    coget.extractLsb' 12 4 = 0b0011#4 ∧ coset.extractLsb' 12 4 = 0b0010#4 ∧
    ∀ w ∈ [coget, coset],
      w.extractLsb' 9 3 = op ∧ w.extractLsb' 8 1 = fr ∧ w.extractLsb' 4 4 = 0b0001#4 ∧ w.extractLsb' 0 4 = reg

/-- R44: a word with `I & 0xF0F0 = 0x3010` is COGET, one with `I & 0xF0F0 = 0x2010` COSET, every value of the other eight bits
is an instruction, and every other word is rejected by name (the rejection is decision D24, log 26). -/
def Obligations.RecognitionByMask : Prop :=
  ∀ w : InstrWord,
    (w &&& 0xF0F0#16 = 0x3010#16 → ∃ i, decodeWord w = .ok i ∧ i.format = 0b0011#4) ∧
    (w &&& 0xF0F0#16 = 0x2010#16 → ∃ i, decodeWord w = .ok i ∧ i.format = 0b0010#4) ∧
    (w &&& 0xF0F0#16 ≠ 0x3010#16 → w &&& 0xF0F0#16 ≠ 0x2010#16 →
      decodeWord w = .error (.notACoprocessorInstruction w))

/-- R45: the operation map, by coprocessor register number. -/
def Obligations.OperationMap : Prop :=
  ∀ r : RegNum,
    cogetOf 0 r = .cogetCostat r ∧ cosetOf 0 r = .cosetCostat r ∧
    cogetOf 1 r = .cogetFplow r ∧ cosetOf 1 r = .cosetFplow r ∧
    cogetOf 2 r = .cogetFpa r .fpa0 ∧ cosetOf 2 r = .cosetFpa r .fpa0 ∧
    cogetOf 3 r = .cogetFpa r .fpa1 ∧ cosetOf 3 r = .cosetFpa r .fpa1 ∧
    cogetOf 4 r = .cogetFpneg r .fpa0 ∧ cosetOf 4 r = .cosetFpint r .fpa0 ∧
    cogetOf 5 r = .cogetFpneg r .fpa1 ∧ cosetOf 5 r = .cosetFpint r .fpa1 ∧
    cogetOf 6 r = .cogetFpabs r .fpa0 ∧ cosetOf 6 r = .cosetFpsqrt r .fpa0 ∧
    cogetOf 7 r = .cogetFpabs r .fpa1 ∧ cosetOf 7 r = .cosetFpsqrt r .fpa1 ∧
    cogetOf 8 r = .cogetUndefined r 8 ∧ cosetOf 8 r = .cosetFpadd r .fpa0 ∧
    cogetOf 9 r = .cogetUndefined r 9 ∧ cosetOf 9 r = .cosetFpadd r .fpa1 ∧
    cogetOf 10 r = .cogetUndefined r 10 ∧ cosetOf 10 r = .cosetFpsub r .fpa0 ∧
    cogetOf 11 r = .cogetUndefined r 11 ∧ cosetOf 11 r = .cosetFpsub r .fpa1 ∧
    cogetOf 12 r = .cogetUndefined r 12 ∧ cosetOf 12 r = .cosetFpmul r .fpa0 ∧
    cogetOf 13 r = .cogetUndefined r 13 ∧ cosetOf 13 r = .cosetFpmul r .fpa1 ∧
    cogetOf 14 r = .cogetUndefined r 14 ∧ cosetOf 14 r = .cosetFpdiv r .fpa0 ∧
    cogetOf 15 r = .cogetUndefined r 15 ∧ cosetOf 15 r = .cosetFpdiv r .fpa1

/-- Each well-formed instruction's word lies in its own row of spec/opcode_table.json, and no other row's instruction does. -/
def Obligations.OpcodeTableRowsApart : Prop :=
  ∀ i j : Instr, i.WellFormed → j.WellFormed →
    (encode i &&& i.rowMask = i.rowMatch) ∧
    (encode j &&& i.rowMask = i.rowMatch → j.rowMask = i.rowMask ∧ j.rowMatch = i.rowMatch)

/-- Words written out from the spec's encodings (30_encoding.md R50, R51; 95_test_vectors.md 2.1) decode, from their bytes in
address order, to the instructions they stand for. -/
def Obligations.WrittenWordsDecode : Prop :=
  decode [0x11#8, 0x30#8] = .ok (.cogetCostat 1, []) ∧
  decode [0x13#8, 0x31#8] = .ok (.cogetFplow 3, []) ∧
  decode [0x14#8, 0x33#8] = .ok (.cogetFpa 4 .fpa1, []) ∧
  decode [0x11#8, 0x34#8] = .ok (.cogetFpneg 1 .fpa0, []) ∧
  decode [0x13#8, 0x37#8] = .ok (.cogetFpabs 3 .fpa1, []) ∧
  decode [0x15#8, 0x3A#8] = .ok (.cogetUndefined 5 10, []) ∧
  decode [0x11#8, 0x20#8] = .ok (.cosetCostat 1, []) ∧
  decode [0x13#8, 0x21#8] = .ok (.cosetFplow 3, []) ∧
  decode [0x14#8, 0x23#8] = .ok (.cosetFpa 4 .fpa1, []) ∧
  decode [0x14#8, 0x25#8] = .ok (.cosetFpint 4 .fpa1, []) ∧
  decode [0x13#8, 0x27#8] = .ok (.cosetFpsqrt 3 .fpa1, []) ∧
  decode [0x14#8, 0x29#8] = .ok (.cosetFpadd 4 .fpa1, []) ∧
  decode [0x13#8, 0x2B#8] = .ok (.cosetFpsub 3 .fpa1, []) ∧
  decode [0x14#8, 0x2D#8] = .ok (.cosetFpmul 4 .fpa1, []) ∧
  decode [0x13#8, 0x2E#8] = .ok (.cosetFpdiv 3 .fpa0, []) ∧
  decode [0x00#8, 0x30#8] = .error (.notACoprocessorInstruction 0x3000#16)

/-- The assembler's sums name the operations: `FPAk + FPNEG` and so on (30_encoding.md R53, which the spec marks derived), and an
operation symbol without an accumulator names no operation but an accumulator of its own number. -/
def Obligations.AssemblerSums : Prop :=
  ∀ (r : RegNum) (k : Accumulator),
    assembleCoget r (FloatH.accumulator k) = some (.cogetFpa r k) ∧
    assembleCoget r (FloatH.accumulator k + FloatH.FPNEG) = some (.cogetFpneg r k) ∧
    assembleCoget r (FloatH.accumulator k + FloatH.FPABS) = some (.cogetFpabs r k) ∧
    assembleCoset r (FloatH.accumulator k) = some (.cosetFpa r k) ∧
    assembleCoset r (FloatH.accumulator k + FloatH.FPINT) = some (.cosetFpint r k) ∧
    assembleCoset r (FloatH.accumulator k + FloatH.FPSQRT) = some (.cosetFpsqrt r k) ∧
    assembleCoset r (FloatH.accumulator k + FloatH.FPADD) = some (.cosetFpadd r k) ∧
    assembleCoset r (FloatH.accumulator k + FloatH.FPSUB) = some (.cosetFpsub r k) ∧
    assembleCoset r (FloatH.accumulator k + FloatH.FPMUL) = some (.cosetFpmul r k) ∧
    assembleCoset r (FloatH.accumulator k + FloatH.FPDIV) = some (.cosetFpdiv r k) ∧
    assembleCoget r FloatH.FPNEG = some (.cogetFpa r .fpa0)

/-- The words of the spec's decimal literals (30_encoding.md R54, R55; the rounding is decision D26, log 28). -/
def Obligations.DecimalLiteralWords : Prop :=
  fDirective ['3', '.', '1', '4', '1', '5'] = some 0x40490E56#32 ∧
  fDirective ['3', 'E', '2'] = some 0x43960000#32 ∧
  fDirective ['+', '1', '.', '0', 'e', '-', '2'] = some 0x3C23D70A#32 ∧
  lifValue ['-', '1', '2', '3', '.', '4', '5', 'E', '+', '7'] = some 0xCE9329F3#32

/-! ### The step, the fetch, reset -/

/-- A step runs the decoded instruction: with `pc` even and an instruction's two bytes at `pc` and `pc + 1`, low byte first, the
step is `exec` of it at the same state; `exec` itself moves `pc` past it (41_register_access.md R87, 20_memory.md R32). -/
def Obligations.StepRunsDecodedInstruction : Prop :=
  ∀ (s : State) (low high : Byte) (i : Instr) (rest : List Byte),
    s.pcAligned →
    Memory.read s.mem s.pc.toNat = some low →
    Memory.read s.mem (s.pc + 1#32).toNat = some high →
    decode (low :: high :: rest) = .ok (i, rest) →
    step s = exec i s

/-- A word that is neither COGET nor COSET is refused by name, and nothing else is refused (60_exceptions.md R137; decision
D24, log 26). -/
def Obligations.StepRefusesExactlyOtherWords : Prop :=
  ∀ (s : State) (r : Refusal),
    step s = .refused r ↔
      ∃ w : InstrWord, s.fetchWord = .ok w ∧ w &&& 0xF0F0#16 ≠ 0x3010#16 ∧ w &&& 0xF0F0#16 ≠ 0x2010#16 ∧
        r = .notACoprocessorInstruction w

/-- The fetch stops at an odd `pc`, and where nothing has stored one of the two bytes: the model's choices (logs 20, 21). -/
def Obligations.FetchStops : Prop :=
  ∀ s : State,
    (s.pc.getLsbD 0 = true → step s = .fault (.misalignedFetch s.pc)) ∧
    (s.pcAligned →
      (Memory.read s.mem s.pc.toNat = none ∨ Memory.read s.mem (s.pc + 1#32).toNat = none) →
      step s = .fault (.unwrittenFetch s.pc))

/-- The word placed by `withFetchWord` is what the very next step runs, at any aligned state; no other byte of memory changes
(the model's stand-in for loading a program, log 21). -/
def Obligations.PlacedWordRunsNext : Prop :=
  ∀ (s : State) (w : Nat) (i : Instr), s.pcAligned → decodeTableWord 16 w = some i →
    step (s.withFetchWord 16 w) = exec i (s.withFetchWord 16 w) ∧
    ∀ a : Nat, a ≠ s.pc.toNat → a ≠ (s.pc + 1#32).toNat →
      Memory.read (s.withFetchWord 16 w).mem a = Memory.read s.mem a

/-- `MemRead` of `n` bytes after `MemWrite` of `n` bytes at the same address gives the value written, modulo its width, for
widths up to a word; every byte outside reads as before (00_scope.md R7, 20_memory.md R32; byte order decision D15, log 19; past the
end of the address space the bytes go on at address 0, the model's choice, log 31). -/
def Obligations.MemoryReadAfterWrite : Prop :=
  ∀ (m : Memory) (a : Word) (n v : Nat), n ≤ 4 →
    Memory.readLE (Memory.writeLE m a n v) a n = some (v % 256 ^ n) ∧
    ∀ b : Nat, (∀ j < n, b ≠ (a + BitVec.ofNat 32 j).toNat) →
      Memory.read (Memory.writeLE m a n v) b = Memory.read m b

/-- After reset COSTAT holds the storage bits of `COSTAT_RESET`, by default zero, which leaves the unit off (10_state.md R25;
decision D17, log 3). -/
def Obligations.ResetCostat : Prop :=
  (∀ p : Config.Params, (State.resetWith p).costat = p.costatReset &&& costatImplMask p) ∧
  State.reset.costat = 0x00000000#32 ∧ State.reset.available = false

/-- The state after reset, under every choice of the open parameters, has the invariant. The choices of the model and of the
spec's decisions are in it: `pc` and r[0] start at zero (log 1), COSTAT starts within its storage bits (decisions D14, D17,
logs 3, 18), `pc` must be even (decision D16, log 20). -/
def Obligations.ResetHasInv : Prop :=
  ∀ p : Config.Params, (State.resetWith p).Inv

/-- Every step keeps the invariant: memory in its canonical form, `pc` even (20_memory.md R35, D16), COSTAT within its storage
bits (10_state.md R13, D14), r[0] zero (10_state.md R20, D20). -/
def Obligations.StepKeepsInv : Prop :=
  ∀ s t : State, s.Inv → step s = .next t → t.Inv

/-! ### What any instruction can do -/

/-- Which instructions stop, and how: exactly the accesses to registers 1 to 15 with the unit unavailable, then exactly the
undefined COGET operations; never a refusal (41_register_access.md R86, 60_exceptions.md R131, R132, R135; decisions D11, D12,
logs 15, 16). -/
def Obligations.ExecStopsExactly : Prop :=
  ∀ (i : Instr) (s : State), i.WellFormed →
    (∀ r, exec i s ≠ .refused r) ∧
    (∀ f, exec i s = .fault f ↔
      (i.number ≠ 0#4 ∧ s.available = false ∧ f = .coprocessorUnavailable (encode i) s.costat) ∨
      (s.available = true ∧ i.format = 0b0011#4 ∧ i.number.msb = true ∧
        f = .undefinedCoprocessorOperation (encode i) s.costat))

/-- Every instruction that completes ends with `pc + 2` and is no control transfer (10_state.md R22), leaves memory alone
(20_memory.md R30), and writes COSTAT only if it is COSET to COSTAT (10_state.md R13, R18). -/
def Obligations.CompletionFrame : Prop :=
  ∀ (i : Instr) (s t : State), exec i s = .next t →
    t.pc = s.pc + 2#32 ∧ t.mem = s.mem ∧ (∀ a, Memory.read t.mem a = Memory.read s.mem a) ∧
    t.params = s.params ∧ t.draws = s.draws + 1 ∧
    ((∀ src, i ≠ .cosetCostat src) → t.costat = s.costat)

/-- No instruction reads or writes memory: with another memory it does the same and keeps that memory (20_memory.md R30). -/
def Obligations.MemoryNeitherReadNorWritten : Prop :=
  ∀ (i : Instr) (s : State) (m : Memory),
    exec i { s with mem := m } = mapNext (fun t => { t with mem := m }) (exec i s)

/-- What every COGET leaves unchanged: both accumulators, COSTAT, memory, every CPU register but the destination; r[0] reads
zero still; FPLOW too, for COGET of COSTAT and for COGET of FPLOW in long mode (10_state.md R18, R20; 42_coget_operations.md
R93). -/
def Obligations.CogetFrame : Prop :=
  ∀ (i : Instr) (s t : State), i.format = 0b0011#4 → exec i s = .next t →
    t.fpa0 = s.fpa0 ∧ t.fpa1 = s.fpa1 ∧ t.costat = s.costat ∧ (∀ a, Memory.read t.mem a = Memory.read s.mem a) ∧
    (∀ r : RegNum, r ≠ i.reg → t.readReg r = s.readReg r) ∧ t.readReg 0#4 = 0#32 ∧
    (i.number = 0#4 → t.fplow = s.fplow) ∧ (i.number = 1#4 → s.long = true → t.fplow = s.fplow)

/-- What every COSET leaves unchanged: the condition codes (10_state.md R21; decision D8, log 11), every CPU register, memory;
COSTAT unless it is the target; every accumulator that the instruction does not name, COSET to COSTAT apart
(10_state.md R18; 43_coset_operations.md R106). -/
def Obligations.CosetFrame : Prop :=
  ∀ (i : Instr) (s t : State), i.format = 0b0010#4 → exec i s = .next t →
    t.cc = s.cc ∧ (∀ r : RegNum, t.readReg r = s.readReg r) ∧ (∀ a, Memory.read t.mem a = Memory.read s.mem a) ∧
    (i.number ≠ 0#4 → t.costat = s.costat ∧ ∀ k, i.accumulator ≠ some k → t.fpa k = s.fpa k)

/-- An operation on FPA[fr] never reads or writes FPA[1 - fr]: with another value there it does the same and keeps that value
(10_state.md R18). -/
def Obligations.OtherAccumulatorNeitherReadNorWritten : Prop :=
  ∀ (i : Instr) (k : Accumulator) (s : State) (y : B64), i.accumulator = some k →
    exec i (s.setFpa k.other y) = mapNext (fun t => t.setFpa k.other y) (exec i s)

/-- R107: of the two-operand operations the accumulator is the left operand and the destination, the CPU's value the right
operand; FPINT and FPSQRT do not read the accumulator. In long mode the result is stored as it is; in short mode the parameter
`SHORT_ROUNDS_ACCUMULATOR` may round it, so that mode is stated where the parameter is at its default (log 4). -/
def Obligations.WhichOperandIsWhich : Prop :=
  ∀ (s : State) (src : RegNum) (k : Accumulator), s.available = true →
    ((s.long = true ∨ s.params.shortRoundsAccumulator = false) →
      (∃ t, exec (.cosetFpadd src k) s = .next t ∧ t.fpa k = fadd s.roundMode s.draws (s.fpa k) (s.operand src)) ∧
      (∃ t, exec (.cosetFpsub src k) s = .next t ∧ t.fpa k = fsub s.roundMode s.draws (s.fpa k) (s.operand src)) ∧
      (∃ t, exec (.cosetFpmul src k) s = .next t ∧ t.fpa k = fmul s.roundMode s.draws (s.fpa k) (s.operand src)) ∧
      (∃ t, exec (.cosetFpdiv src k) s = .next t ∧ t.fpa k = fdiv s.roundMode s.draws (s.fpa k) (s.operand src))) ∧
    (∀ y : B64, exec (.cosetFpint src k) (s.setFpa k y) = exec (.cosetFpint src k) s) ∧
    (∀ y : B64, exec (.cosetFpsqrt src k) (s.setFpa k y) = exec (.cosetFpsqrt src k) s)

/-! ### COSTAT -/

/-- `COGET dst,COSTAT` (41_register_access.md R80): needs no enabled or selected unit; the codes are drawn (decision D7,
log 12); nothing else changes. -/
def Obligations.CogetCostatResult : Prop :=
  ∀ (s : State) (dst : RegNum),
    (encode (.cogetCostat dst)).toNat = 0x3010 + dst.toNat ∧
    exec (.cogetCostat dst) s = .next
      { s.writeReg dst s.costat with
        cc := ⟨Config.freeN s.draws, Config.freeZ s.draws, Config.freeV s.draws, Config.freeC s.draws⟩
        pc := s.pc + 2#32
        draws := s.draws + 1 }

/-- `COSET src,COSTAT` (41_register_access.md R81, 10_state.md R26): needs no enabled or selected unit and leaves the codes
alone (decision D8, log 11). A value that leaves bit 1 set keeps FPLOW and both accumulators; one that clears it drops them
unless the parameter keeps them (decision D13, log 17). -/
def Obligations.CosetCostatResult : Prop :=
  ∀ (s : State) (src : RegNum),
    let new := s.readReg src &&& costatImplMask s.params
    (encode (.cosetCostat src)).toNat = 0x2010 + src.toNat ∧
    ((new.getLsbD 1 = true ∨ s.params.fpuStateSurvivesDisable = true) →
      exec (.cosetCostat src) s = .next { s with costat := new, pc := s.pc + 2#32, draws := s.draws + 1 }) ∧
    (new.getLsbD 1 = false → s.params.fpuStateSurvivesDisable = false →
      exec (.cosetCostat src) s = .next
        { s with
          costat := new
          fplow := Config.freeFplow s.draws
          fpa0 := Config.freeFpa0 s.draws
          fpa1 := Config.freeFpa1 s.draws
          pc := s.pc + 2#32
          draws := s.draws + 1 })

/-- What COSET writes to COSTAT, COGET reads back: the storage bits as written, the others 0; bits 12, 10:8 and 1 are storage
under every parameter (10_state.md R13; decision D14, log 18). -/
def Obligations.CostatReadsBack : Prop :=
  ∀ (s : State) (src dst : RegNum), dst ≠ 0#4 →
    ∃ t u, exec (.cosetCostat src) s = .next t ∧ exec (.cogetCostat dst) t = .next u ∧
      u.readReg dst = s.readReg src &&& costatImplMask s.params ∧
      u.readReg dst &&& 0x00001702#32 = s.readReg src &&& 0x00001702#32

/-- Register 0 reads as zero in every state and discards what is written; every other register holds what is written, and a
write leaves the rest alone (10_state.md R20; decision D20, log 23). -/
def Obligations.RegisterZeroAndTheOthers : Prop :=
  ∀ (s : State) (i j : RegNum) (v : Word),
    s.readReg 0#4 = 0#32 ∧ s.writeReg 0#4 v = s ∧ (i ≠ 0#4 → (s.writeReg i v).readReg i = v) ∧
    (j ≠ i → (s.writeReg i v).readReg j = s.readReg j)

/-! ### FPLOW and the accumulators: one statement a rule. Each says the rule's encoding, its only fault (decision D11, log 15) and,
in both modes, the whole next state. -/

/-- `COGET dst,FPLOW` (41_register_access.md R82). In short mode the word delivered and FPLOW are free values (decision D9, log 13);
the codes are free values in both modes (log 12). The fault is decision D11 (log 15), the discarded r[0] D20 (log 23). -/
def Obligations.CogetFplowResult : Prop :=
  ∀ (s : State) (dst : RegNum),
    let drawn : CondCodes := ⟨Config.freeN s.draws, Config.freeZ s.draws, Config.freeV s.draws, Config.freeC s.draws⟩
    (encode (.cogetFplow dst)).toNat = 0x3110 + dst.toNat ∧
    (s.available = false →
      exec (.cogetFplow dst) s = .fault (.coprocessorUnavailable (encode (.cogetFplow dst)) s.costat)) ∧
    (s.available = true → s.long = true →
      exec (.cogetFplow dst) s = .next
        { s.writeReg dst s.fplow with cc := drawn, pc := s.pc + 2#32, draws := s.draws + 1 }) ∧
    (s.available = true → s.long = false →
      exec (.cogetFplow dst) s = .next
        { s.writeReg dst (Config.freeFplowRead s.draws) with
          fplow := Config.freeFplow s.draws
          cc := drawn
          pc := s.pc + 2#32
          draws := s.draws + 1 })

/-- `COSET src,FPLOW` (41_register_access.md R83). In short mode FPLOW becomes a free value (decision D9, log 13). The fault is
decision D11 (log 15), the unchanged codes D8 (log 11), r[0] as a zero D20 (log 23). -/
def Obligations.CosetFplowResult : Prop :=
  ∀ (s : State) (src : RegNum),
    (encode (.cosetFplow src)).toNat = 0x2110 + src.toNat ∧
    (s.available = false →
      exec (.cosetFplow src) s = .fault (.coprocessorUnavailable (encode (.cosetFplow src)) s.costat)) ∧
    (s.available = true → s.long = true →
      exec (.cosetFplow src) s = .next
        { s with fplow := s.readReg src, pc := s.pc + 2#32, draws := s.draws + 1 }) ∧
    (s.available = true → s.long = false →
      exec (.cosetFplow src) s = .next
        { s with fplow := Config.freeFplow s.draws, pc := s.pc + 2#32, draws := s.draws + 1 })

/-- `COGET dst,FPAk` (41_register_access.md R84). In long mode the high word goes to the register and the low word to FPLOW; in short
mode the narrowed number goes to the register and FPLOW becomes a free value (decision D9, log 13). The codes are those of the
delivered number (D5, D6, log 10). The fault is D11 (log 15), the discarded r[0] D20 (log 23). -/
def Obligations.CogetFpaResult : Prop :=
  ∀ (s : State) (dst : RegNum) (k : Accumulator),
    (encode (.cogetFpa dst k)).toNat = 0x3210 + k.bit.toNat * 2 ^ 8 + dst.toNat ∧
    (s.available = false →
      exec (.cogetFpa dst k) s = .fault (.coprocessorUnavailable (encode (.cogetFpa dst k)) s.costat)) ∧
    (s.available = true → s.long = true →
      exec (.cogetFpa dst k) s = .next
        { s.writeReg dst ((s.fpa k).extractLsb' 32 32) with
          fplow := (s.fpa k).extractLsb' 0 32
          cc := fpCcLong ((s.fpa k).extractLsb' 32 32) ((s.fpa k).extractLsb' 0 32)
          pc := s.pc + 2#32
          draws := s.draws + 1 }) ∧
    (s.available = true → s.long = false →
      exec (.cogetFpa dst k) s = .next
        { s.writeReg dst (narrow s.roundMode s.draws (s.fpa k)) with
          fplow := Config.freeFplow s.draws
          cc := fpCcShort (narrow s.roundMode s.draws (s.fpa k))
          pc := s.pc + 2#32
          draws := s.draws + 1 })

/-- `COGET dst,FPAk+FPNEG` (42_coget_operations.md R90), as R84 with bit 63 inverted first. The codes are decisions D5, D6 (log 10),
FPLOW in short mode D9 (log 13), the fault D11 (log 15), the discarded r[0] D20 (log 23). -/
def Obligations.CogetFpnegResult : Prop :=
  ∀ (s : State) (dst : RegNum) (k : Accumulator),
    let y : B64 := s.fpa k ^^^ 0x8000000000000000#64
    (encode (.cogetFpneg dst k)).toNat = 0x3410 + k.bit.toNat * 2 ^ 8 + dst.toNat ∧
    (s.available = false →
      exec (.cogetFpneg dst k) s = .fault (.coprocessorUnavailable (encode (.cogetFpneg dst k)) s.costat)) ∧
    (s.available = true → s.long = true →
      exec (.cogetFpneg dst k) s = .next
        { s.writeReg dst (y.extractLsb' 32 32) with
          fplow := y.extractLsb' 0 32
          cc := fpCcLong (y.extractLsb' 32 32) (y.extractLsb' 0 32)
          pc := s.pc + 2#32
          draws := s.draws + 1 }) ∧
    (s.available = true → s.long = false →
      exec (.cogetFpneg dst k) s = .next
        { s.writeReg dst (narrow s.roundMode s.draws y) with
          fplow := Config.freeFplow s.draws
          cc := fpCcShort (narrow s.roundMode s.draws y)
          pc := s.pc + 2#32
          draws := s.draws + 1 })

/-- `COGET dst,FPAk+FPABS` (42_coget_operations.md R91). Bit 63 is cleared first; in short mode bit 31 of the delivered word is
cleared as well, also when the word is a drawn NaN. N is always 0. The codes are decisions D5, D6 (log 10), FPLOW in short mode
D9 (log 13), the fault D11 (log 15), the discarded r[0] D20 (log 23). -/
def Obligations.CogetFpabsResult : Prop :=
  ∀ (s : State) (dst : RegNum) (k : Accumulator),
    let y : B64 := s.fpa k &&& 0x7FFFFFFFFFFFFFFF#64
    let w : Word := narrow s.roundMode s.draws y &&& 0x7FFFFFFF#32
    (encode (.cogetFpabs dst k)).toNat = 0x3610 + k.bit.toNat * 2 ^ 8 + dst.toNat ∧
    (s.available = false →
      exec (.cogetFpabs dst k) s = .fault (.coprocessorUnavailable (encode (.cogetFpabs dst k)) s.costat)) ∧
    (s.available = true → s.long = true →
      exec (.cogetFpabs dst k) s = .next
        { s.writeReg dst (y.extractLsb' 32 32) with
          fplow := y.extractLsb' 0 32
          cc := fpCcLong (y.extractLsb' 32 32) (y.extractLsb' 0 32)
          pc := s.pc + 2#32
          draws := s.draws + 1 }) ∧
    (s.available = true → s.long = false →
      exec (.cogetFpabs dst k) s = .next
        { s.writeReg dst w with
          fplow := Config.freeFplow s.draws
          cc := fpCcShort w
          pc := s.pc + 2#32
          draws := s.draws + 1 }) ∧
    (fpCcLong (y.extractLsb' 32 32) (y.extractLsb' 0 32)).n = false ∧ (fpCcShort w).n = false

/-- COGET of numbers 8 to 15 (42_coget_operations.md R92) stops on every path: unavailable first, then undefined (the faults are
decisions D11 and D12, logs 15, 16). -/
def Obligations.CogetUndefinedStops : Prop :=
  ∀ (s : State) (dst : RegNum) (number : CopNum),
    (s.available = false →
      exec (.cogetUndefined dst number) s =
        .fault (.coprocessorUnavailable (encode (.cogetUndefined dst number)) s.costat)) ∧
    (s.available = true →
      exec (.cogetUndefined dst number) s =
        .fault (.undefinedCoprocessorOperation (encode (.cogetUndefined dst number)) s.costat))

/-- `COSET src,FPAk` (41_register_access.md R85). In long mode the 64 bits are stored as they are, with FPLOW kept under the
parameter (decision D10, log 14); in short mode the word is widened and FPLOW becomes a free value (D9, log 13). The codes are
unchanged (D8, log 11). The fault is D11 (log 15). -/
def Obligations.CosetFpaResult : Prop :=
  ∀ (s : State) (src : RegNum) (k : Accumulator),
    (encode (.cosetFpa src k)).toNat = 0x2210 + k.bit.toNat * 2 ^ 8 + src.toNat ∧
    (s.available = false →
      exec (.cosetFpa src k) s = .fault (.coprocessorUnavailable (encode (.cosetFpa src k)) s.costat)) ∧
    (s.available = true → s.long = true →
      exec (.cosetFpa src k) s = .next
        { s.setFpa k (s.readReg src ++ s.fplow) with
          fplow := if s.params.fplowPreservedByCoset then s.fplow else Config.freeFplow s.draws
          pc := s.pc + 2#32
          draws := s.draws + 1 }) ∧
    (s.available = true → s.long = false →
      exec (.cosetFpa src k) s = .next
        { s.setFpa k (widen s.draws (s.readReg src)) with
          fplow := Config.freeFplow s.draws
          pc := s.pc + 2#32
          draws := s.draws + 1 })

/-- `COSET src,FPINT+FPAk` (43_coset_operations.md R100): the integer operand, 64 or 32 bits in two's complement, converted.
Codes unchanged (D8, log 11); FPLOW a free value in short mode (D9, log 13); FPLOW in long mode (D10, log 14), the rounding of a
short-mode result (D2, log 4) and `ROUND_MODE` (D3, log 7) are parameters. The fault is D11 (log 15). -/
def Obligations.CosetFpintResult : Prop :=
  ∀ (s : State) (src : RegNum) (k : Accumulator),
    (encode (.cosetFpint src k)).toNat = 0x2410 + k.bit.toNat * 2 ^ 8 + src.toNat ∧
    (s.available = false →
      exec (.cosetFpint src k) s = .fault (.coprocessorUnavailable (encode (.cosetFpint src k)) s.costat)) ∧
    (s.available = true → s.long = true →
      exec (.cosetFpint src k) s = .next
        { s.setFpa k (intToB64 s.roundMode (s.readReg src ++ s.fplow : BitVec 64).toInt) with
          fplow := if s.params.fplowPreservedByCoset then s.fplow else Config.freeFplow s.draws
          pc := s.pc + 2#32
          draws := s.draws + 1 }) ∧
    (s.available = true → s.long = false →
      let y := intToB64 s.roundMode (s.readReg src).toInt
      exec (.cosetFpint src k) s = .next
        { s.setFpa k (if s.params.shortRoundsAccumulator then shortRounded s.roundMode s.draws y else y) with
          fplow := Config.freeFplow s.draws
          pc := s.pc + 2#32
          draws := s.draws + 1 })

/-- `COSET src,FPSQRT+FPAk` (43_coset_operations.md R101): the square root of the operand. Codes, FPLOW and
parameters as in R100 (logs 4, 7, 11, 13, 14); the fault is decision D11 (log 15). -/
def Obligations.CosetFpsqrtResult : Prop :=
  ∀ (s : State) (src : RegNum) (k : Accumulator),
    (encode (.cosetFpsqrt src k)).toNat = 0x2610 + k.bit.toNat * 2 ^ 8 + src.toNat ∧
    (s.available = false →
      exec (.cosetFpsqrt src k) s = .fault (.coprocessorUnavailable (encode (.cosetFpsqrt src k)) s.costat)) ∧
    (s.available = true → s.long = true →
      exec (.cosetFpsqrt src k) s = .next
        { s.setFpa k (fsqrt s.roundMode s.draws (s.readReg src ++ s.fplow)) with
          fplow := if s.params.fplowPreservedByCoset then s.fplow else Config.freeFplow s.draws
          pc := s.pc + 2#32
          draws := s.draws + 1 }) ∧
    (s.available = true → s.long = false →
      let y := fsqrt s.roundMode s.draws (widen s.draws (s.readReg src))
      exec (.cosetFpsqrt src k) s = .next
        { s.setFpa k (if s.params.shortRoundsAccumulator then shortRounded s.roundMode s.draws y else y) with
          fplow := Config.freeFplow s.draws
          pc := s.pc + 2#32
          draws := s.draws + 1 })

/-- `COSET src,FPADD+FPAk` (43_coset_operations.md R102): the accumulator plus the operand. Codes, FPLOW and
parameters as in R100 (logs 4, 7, 11, 13, 14); the fault is decision D11 (log 15). -/
def Obligations.CosetFpaddResult : Prop :=
  ∀ (s : State) (src : RegNum) (k : Accumulator),
    (encode (.cosetFpadd src k)).toNat = 0x2810 + k.bit.toNat * 2 ^ 8 + src.toNat ∧
    (s.available = false →
      exec (.cosetFpadd src k) s = .fault (.coprocessorUnavailable (encode (.cosetFpadd src k)) s.costat)) ∧
    (s.available = true → s.long = true →
      exec (.cosetFpadd src k) s = .next
        { s.setFpa k (fadd s.roundMode s.draws (s.fpa k) (s.readReg src ++ s.fplow)) with
          fplow := if s.params.fplowPreservedByCoset then s.fplow else Config.freeFplow s.draws
          pc := s.pc + 2#32
          draws := s.draws + 1 }) ∧
    (s.available = true → s.long = false →
      let y := fadd s.roundMode s.draws (s.fpa k) (widen s.draws (s.readReg src))
      exec (.cosetFpadd src k) s = .next
        { s.setFpa k (if s.params.shortRoundsAccumulator then shortRounded s.roundMode s.draws y else y) with
          fplow := Config.freeFplow s.draws
          pc := s.pc + 2#32
          draws := s.draws + 1 })

/-- `COSET src,FPSUB+FPAk` (43_coset_operations.md R103): the accumulator minus the operand. Codes, FPLOW and
parameters as in R100 (logs 4, 7, 11, 13, 14); the fault is decision D11 (log 15). -/
def Obligations.CosetFpsubResult : Prop :=
  ∀ (s : State) (src : RegNum) (k : Accumulator),
    (encode (.cosetFpsub src k)).toNat = 0x2A10 + k.bit.toNat * 2 ^ 8 + src.toNat ∧
    (s.available = false →
      exec (.cosetFpsub src k) s = .fault (.coprocessorUnavailable (encode (.cosetFpsub src k)) s.costat)) ∧
    (s.available = true → s.long = true →
      exec (.cosetFpsub src k) s = .next
        { s.setFpa k (fsub s.roundMode s.draws (s.fpa k) (s.readReg src ++ s.fplow)) with
          fplow := if s.params.fplowPreservedByCoset then s.fplow else Config.freeFplow s.draws
          pc := s.pc + 2#32
          draws := s.draws + 1 }) ∧
    (s.available = true → s.long = false →
      let y := fsub s.roundMode s.draws (s.fpa k) (widen s.draws (s.readReg src))
      exec (.cosetFpsub src k) s = .next
        { s.setFpa k (if s.params.shortRoundsAccumulator then shortRounded s.roundMode s.draws y else y) with
          fplow := Config.freeFplow s.draws
          pc := s.pc + 2#32
          draws := s.draws + 1 })

/-- `COSET src,FPMUL+FPAk` (43_coset_operations.md R104): the accumulator times the operand. Codes, FPLOW and
parameters as in R100 (logs 4, 7, 11, 13, 14); the fault is decision D11 (log 15). -/
def Obligations.CosetFpmulResult : Prop :=
  ∀ (s : State) (src : RegNum) (k : Accumulator),
    (encode (.cosetFpmul src k)).toNat = 0x2C10 + k.bit.toNat * 2 ^ 8 + src.toNat ∧
    (s.available = false →
      exec (.cosetFpmul src k) s = .fault (.coprocessorUnavailable (encode (.cosetFpmul src k)) s.costat)) ∧
    (s.available = true → s.long = true →
      exec (.cosetFpmul src k) s = .next
        { s.setFpa k (fmul s.roundMode s.draws (s.fpa k) (s.readReg src ++ s.fplow)) with
          fplow := if s.params.fplowPreservedByCoset then s.fplow else Config.freeFplow s.draws
          pc := s.pc + 2#32
          draws := s.draws + 1 }) ∧
    (s.available = true → s.long = false →
      let y := fmul s.roundMode s.draws (s.fpa k) (widen s.draws (s.readReg src))
      exec (.cosetFpmul src k) s = .next
        { s.setFpa k (if s.params.shortRoundsAccumulator then shortRounded s.roundMode s.draws y else y) with
          fplow := Config.freeFplow s.draws
          pc := s.pc + 2#32
          draws := s.draws + 1 })

/-- `COSET src,FPDIV+FPAk` (43_coset_operations.md R105): the accumulator divided by the operand; no operand traps.
Codes, FPLOW and parameters as in R100 (logs 4, 7, 11, 13, 14); the fault is decision D11 (log 15). -/
def Obligations.CosetFpdivResult : Prop :=
  ∀ (s : State) (src : RegNum) (k : Accumulator),
    (encode (.cosetFpdiv src k)).toNat = 0x2E10 + k.bit.toNat * 2 ^ 8 + src.toNat ∧
    (s.available = false →
      exec (.cosetFpdiv src k) s = .fault (.coprocessorUnavailable (encode (.cosetFpdiv src k)) s.costat)) ∧
    (s.available = true → s.long = true →
      exec (.cosetFpdiv src k) s = .next
        { s.setFpa k (fdiv s.roundMode s.draws (s.fpa k) (s.readReg src ++ s.fplow)) with
          fplow := if s.params.fplowPreservedByCoset then s.fplow else Config.freeFplow s.draws
          pc := s.pc + 2#32
          draws := s.draws + 1 }) ∧
    (s.available = true → s.long = false →
      let y := fdiv s.roundMode s.draws (s.fpa k) (widen s.draws (s.readReg src))
      exec (.cosetFpdiv src k) s = .next
        { s.setFpa k (if s.params.shortRoundsAccumulator then shortRounded s.roundMode s.draws y else y) with
          fplow := Config.freeFplow s.draws
          pc := s.pc + 2#32
          draws := s.draws + 1 })

/-! ### Two or three instructions together -/

/-- In long mode the 64 bits pass unchanged: loading an accumulator and reading it back gives the same high and low words, NaNs
and un-normalized numbers included (40_numerics.md R73). -/
def Obligations.LongLoadThenReadIsExact : Prop :=
  ∀ (s : State) (src dst : RegNum) (k : Accumulator), s.available = true → s.long = true → dst ≠ 0#4 →
    ∃ t u, exec (.cosetFpa src k) s = .next t ∧ exec (.cogetFpa dst k) t = .next u ∧
      u.readReg dst = s.readReg src ∧ u.fplow = s.fplow

/-- In long mode a number moves from one accumulator to another through a CPU register with all its bits (41_register_access.md
R89, which the spec marks derived). -/
def Obligations.LongMoveBetweenAccumulators : Prop :=
  ∀ (s : State) (r : RegNum) (j k : Accumulator), s.available = true → s.long = true → r ≠ 0#4 →
    ∃ t u, exec (.cogetFpa r j) s = .next t ∧ exec (.cosetFpa r k) t = .next u ∧
      u.fpa k = s.fpa j ∧ (j ≠ k → u.fpa j = s.fpa j)

/-- In short mode a short number loaded and read back is the same word, unless it is a NaN (41_register_access.md R85, R84;
40_numerics.md R64, R65; the formats are general knowledge K1, log 8). -/
def Obligations.ShortLoadThenReadIsExact : Prop :=
  ∀ (s : State) (src dst : RegNum) (k : Accumulator), s.available = true → s.long = false → dst ≠ 0#4 →
    isNaN32 (s.readReg src) = false →
    ∃ t u, exec (.cosetFpa src k) s = .next t ∧ exec (.cogetFpa dst k) t = .next u ∧
      u.readReg dst = s.readReg src

/-- Format conversion by changing the mode between load and read (41_register_access.md R88, which the spec marks derived): a short
number loaded in short mode and read after COSTAT is set to long is the widened number; a long number loaded in long mode and
read after COSTAT is set to short is the narrowed one. The change of mode leaves the accumulator alone (R81; decision D13, log 17); COSTAT bits 12, 10:8 and 1 are storage (D14, log 18);
the formats and the rounding are logs 7 and 8. -/
def Obligations.FormatConversionByMode : Prop :=
  ∀ (s : State) (src m dst : RegNum) (k : Accumulator), s.available = true → dst ≠ 0#4 →
    (s.long = false → s.readReg m &&& 0x00001702#32 = 0x00001102#32 →
      ∃ t u v, exec (.cosetFpa src k) s = .next t ∧ exec (.cosetCostat m) t = .next u ∧ exec (.cogetFpa dst k) u = .next v ∧
        u.fpa k = t.fpa k ∧ v.readReg dst ++ v.fplow = widen s.draws (s.readReg src)) ∧
    (s.long = true → s.readReg m &&& 0x00001702#32 = 0x00000102#32 →
      ∃ t u v, exec (.cosetFpa src k) s = .next t ∧ exec (.cosetCostat m) t = .next u ∧ exec (.cogetFpa dst k) u = .next v ∧
        u.fpa k = t.fpa k ∧ v.readReg dst = narrow s.roundMode (s.draws + 2) (s.readReg src ++ s.fplow))

/-! ### The condition codes -/

/-- The codes report on the delivered number: in long mode on all 64 bits, in short mode on the 32 (40_numerics.md R72;
decisions D5, D6, log 10). -/
def Obligations.CodesReportDeliveredNumber : Prop :=
  (∀ y : B64, fpCcLong (y.extractLsb' 32 32) (y.extractLsb' 0 32) =
    ⟨sign64 y, decide (y = 0#64), false, !isFinite64 y⟩) ∧
  (∀ w : B32, fpCcShort w = ⟨sign32 w, decide (w = 0#32), false, !isFinite32 w⟩)

/-- After a long-mode COGET of a finite accumulator the branch conditions report its relation to zero (40_numerics.md R76; the
conditions of BGT and BLE are general knowledge, 44_cpu_instructions_in_examples.md R124, log 29). -/
def Obligations.BranchConditionsReportRelationToZero : Prop :=
  ∀ (s : State) (dst : RegNum) (k : Accumulator), s.available = true → s.long = true → isFinite64 (s.fpa k) = true →
    ∃ t, exec (.cogetFpa dst k) s = .next t ∧
      t.cc.greater = decide (0 < value64 (s.fpa k)) ∧ t.cc.lessOrEqual = decide (value64 (s.fpa k) ≤ 0)

/-! ### Numbers -/

/-- `widen` is exact: the long number with exactly the value and the sign of the short one, a short unit being 2^925 long units
(40_numerics.md R64; the IEEE biases are general knowledge, log 8). -/
def Obligations.WidenIsExact : Prop :=
  ∀ (t : Nat) (x : B32), isFinite32 x = true →
    isFinite64 (widen t x) = true ∧ sign64 (widen t x) = sign32 x ∧ value64 (widen t x) = value32 x * 2 ^ 925

/-- The values that are no finite numbers: `widen` and `narrow` keep an infinity and its sign, and answer a NaN for a NaN; so does
the rounding of a short-mode result, which is otherwise `widen` of `narrow` (40_numerics.md R64, R65, R74, R75; the classification
is general knowledge K2, log 8; decisions D2, D4, logs 4, 6). -/
def Obligations.ConversionOfSpecialValues : Prop :=
  ∀ (m : Config.RoundMode) (t : Nat) (x : B32) (y : B64) (s : Bool),
    widen t (infinity32 s) = infinity64 s ∧ narrow m t (infinity64 s) = infinity32 s ∧
    (isNaN32 x = true → isNaN64 (widen t x) = true) ∧
    (isNaN64 y = true → isNaN32 (narrow m t y) = true ∧ isNaN64 (shortRounded m t y) = true) ∧
    (isNaN64 y = false → shortRounded m t y = widen t (narrow m t y))

/-- `narrow` is the short number that `ROUND_MODE` picks (at its default the nearest one, and where two are equally near the one with
an even last mantissa bit), and it keeps the sign (40_numerics.md R65, R66; decision D3, log 7). -/
def Obligations.NarrowCorrectlyRounded : Prop :=
  ∀ (m : Config.RoundMode) (t : Nat) (y : B64) (z : B32), isFinite64 y = true → isFinite32 z = true →
    isFinite32 (narrow m t y) = true →
    sign32 (narrow m t y) = sign64 y ∧
    m.Picks ((value64 y : ℝ) / 2 ^ 925) (value32 (narrow m t y)) ((narrow m t y).getLsbD 0 = false) (value32 z)

/-- `narrow` answers the infinity of the number's sign exactly where the rounded magnitude is 2^128 or more, which in round to nearest
is from 2^128 - 2^103 on (40_numerics.md R65; decision D3, log 7). -/
def Obligations.NarrowOverflowsExactlyFrom : Prop :=
  ∀ (m : Config.RoundMode) (t : Nat) (y : B64), isFinite64 y = true →
    let overflows := m.overflows (sign64 y) (2 ^ 1202) (2 ^ 1178) (magnitude64 y) 1
    (overflows = true → narrow m t y = infinity32 (sign64 y)) ∧ (overflows = false → isFinite32 (narrow m t y) = true) ∧
    (m.isNearest = true → overflows = decide (2 ^ 1202 - 2 ^ 1177 ≤ magnitude64 y))

/-- Negating and narrowing commute for every number that is not a NaN, where `ROUND_MODE` treats both signs alike, and the two sign
operations do to the value what their names say (42_coget_operations.md R93, which the spec marks derived; log 7). -/
def Obligations.SignOperations : Prop :=
  ∀ (m : Config.RoundMode) (t : Nat) (y : B64),
    (isNaN64 y = false → m ≠ .towardPositive → m ≠ .towardNegative →
      narrow m t (negate64 y) = narrow m t y ^^^ 0x80000000#32 ∧ narrow m t (absolute64 y) = absolute32 (narrow m t y)) ∧
    value64 (negate64 y) = -value64 y ∧ value64 (absolute64 y) = |value64 y|

/-- `fadd` and `fsub` are correctly rounded: a finite result is what `ROUND_MODE` picks for the exact sum or difference, ties and all;
and `fsub` is `fadd` with the second operand's sign inverted, unless that operand is a NaN (40_numerics.md R66, R67; general
knowledge K4 and decision D3, logs 7, 8). -/
def Obligations.FaddFsubCorrectlyRounded : Prop :=
  ∀ (m : Config.RoundMode) (t : Nat) (a b z : B64),
    (isNaN64 b = false → fsub m t a b = fadd m t a (negate64 b)) ∧
    (isFinite64 a = true → isFinite64 b = true → isFinite64 z = true →
      (isFinite64 (fadd m t a b) = true →
        m.Picks (value64 a + value64 b) (value64 (fadd m t a b)) ((fadd m t a b).getLsbD 0 = false) (value64 z)) ∧
      (isFinite64 (fsub m t a b) = true →
        m.Picks (value64 a - value64 b) (value64 (fsub m t a b)) ((fsub m t a b).getLsbD 0 = false) (value64 z)))

/-- `fmul` is correctly rounded: the sign is the xor of the signs, and a finite result is what `ROUND_MODE` picks for the exact product,
ties and all. The product of two values is in units of 2^(-2148) (40_numerics.md R66, R68; K4, D3, logs 7, 8). -/
def Obligations.FmulCorrectlyRounded : Prop :=
  ∀ (m : Config.RoundMode) (t : Nat) (a b z : B64), isFinite64 a = true → isFinite64 b = true → isFinite64 z = true →
    isFinite64 (fmul m t a b) = true →
    sign64 (fmul m t a b) = (sign64 a ^^ sign64 b) ∧
    m.Picks ((value64 a : ℝ) * value64 b / 2 ^ 1074) (value64 (fmul m t a b)) ((fmul m t a b).getLsbD 0 = false) (value64 z)

/-- `fdiv` is correctly rounded, for a divisor that is not zero: the sign is the xor of the signs, and a finite result is what
`ROUND_MODE` picks for the exact quotient, ties and all (40_numerics.md R66, R69; K4, D3, logs 7, 8). -/
def Obligations.FdivCorrectlyRounded : Prop :=
  ∀ (m : Config.RoundMode) (t : Nat) (a b z : B64), isFinite64 a = true → isFinite64 b = true → isZero64 b = false →
    isFinite64 z = true → isFinite64 (fdiv m t a b) = true →
    sign64 (fdiv m t a b) = (sign64 a ^^ sign64 b) ∧
    m.Picks ((value64 a : ℝ) / value64 b * 2 ^ 1074) (value64 (fdiv m t a b)) ((fdiv m t a b).getLsbD 0 = false) (value64 z)

/-- `fsqrt` is correctly rounded: for a finite operand of positive sign the result is finite, of positive sign, and what `ROUND_MODE`
picks for the real square root (40_numerics.md R66, R70; K4, D3, logs 7, 8). -/
def Obligations.FsqrtCorrectlyRounded : Prop :=
  ∀ (m : Config.RoundMode) (t : Nat) (b z : B64), isFinite64 b = true → sign64 b = false → isFinite64 z = true →
    isFinite64 (fsqrt m t b) = true ∧ sign64 (fsqrt m t b) = false ∧
    m.Picks (Real.sqrt ((value64 b : ℝ) * 2 ^ 1074)) (value64 (fsqrt m t b)) ((fsqrt m t b).getLsbD 0 = false) (value64 z)

/-- A sum, product or quotient answers the infinity of its sign exactly where its rounded magnitude is 2^1024 or more, which in round
to nearest is from half-way between the largest long number and 2^1024 on; below that it is finite (40_numerics.md R67, R68, R69;
K4, D3, logs 7, 8). -/
def Obligations.ArithmeticOverflowsExactlyFrom : Prop :=
  ∀ (m : Config.RoundMode) (t : Nat) (a b : B64), isFinite64 a = true → isFinite64 b = true →
    let sumOverflows := m.overflows (decide (value64 a + value64 b < 0)) (2 ^ 2098) (2 ^ 2045) (value64 a + value64 b).natAbs 1
    let productOverflows := m.overflows (sign64 a ^^ sign64 b) (2 ^ 2098) (2 ^ 2045) (magnitude64 a * magnitude64 b) (2 ^ 1074)
    let quotientOverflows := m.overflows (sign64 a ^^ sign64 b) (2 ^ 2098) (2 ^ 2045) (magnitude64 a * 2 ^ 1074) (magnitude64 b)
    (sumOverflows = true → fadd m t a b = infinity64 (decide (value64 a + value64 b < 0))) ∧
    (sumOverflows = false → isFinite64 (fadd m t a b) = true) ∧
    (productOverflows = true → fmul m t a b = infinity64 (sign64 a ^^ sign64 b)) ∧
    (productOverflows = false → isFinite64 (fmul m t a b) = true) ∧
    (isZero64 b = false → quotientOverflows = true → fdiv m t a b = infinity64 (sign64 a ^^ sign64 b)) ∧
    (isZero64 b = false → quotientOverflows = false → isFinite64 (fdiv m t a b) = true)

/-- The special operands of 40_numerics.md R78, and the NaN rules of R67 to R70 (general knowledge K4, logs 6, 8): `x` is
finite and not zero, `y` any number, `n` a NaN. The sign of a sum that is zero is stated for round to nearest, as the spec states it;
in another `ROUND_MODE` it is a free value (log 7). -/
def Obligations.SpecialOperands : Prop :=
  ∀ (m : Config.RoundMode) (t : Nat) (x y n : B64) (p q : Bool),
    isFinite64 x = true → isZero64 x = false → isNaN64 n = true →
    isNaN64 (fadd m t (infinity64 p) (infinity64 (!p))) = true ∧
    isNaN64 (fsub m t (infinity64 p) (infinity64 p)) = true ∧
    fadd m t (infinity64 p) x = infinity64 p ∧ fadd m t (infinity64 p) (infinity64 p) = infinity64 p ∧
    (m.isNearest = true →
      fadd m t x (negate64 x) = zero64 false ∧ fsub m t x x = zero64 false ∧
      fadd m t (zero64 p) (zero64 q) = zero64 (p && q) ∧ fsub m t (zero64 p) (zero64 q) = zero64 (p && !q)) ∧
    isZero64 (fadd m t x (negate64 x)) = true ∧ isZero64 (fadd m t (zero64 p) (zero64 q)) = true ∧
    isNaN64 (fmul m t (zero64 p) (infinity64 q)) = true ∧ isNaN64 (fmul m t (infinity64 p) (zero64 q)) = true ∧
    fmul m t x (zero64 q) = zero64 (sign64 x ^^ q) ∧ fmul m t x (infinity64 q) = infinity64 (sign64 x ^^ q) ∧
    isNaN64 (fdiv m t (zero64 p) (zero64 q)) = true ∧ isNaN64 (fdiv m t (infinity64 p) (infinity64 q)) = true ∧
    fdiv m t x (zero64 q) = infinity64 (sign64 x ^^ q) ∧ fdiv m t (infinity64 p) x = infinity64 (p ^^ sign64 x) ∧
    fdiv m t (infinity64 p) (zero64 q) = infinity64 (p ^^ q) ∧
    fdiv m t x (infinity64 q) = zero64 (sign64 x ^^ q) ∧ fdiv m t (zero64 p) x = zero64 (p ^^ sign64 x) ∧
    fdiv m t (zero64 p) (infinity64 q) = zero64 (p ^^ q) ∧
    (sign64 x = true → isNaN64 (fsqrt m t x) = true) ∧ isNaN64 (fsqrt m t (infinity64 true)) = true ∧
    fsqrt m t (zero64 p) = zero64 p ∧ fsqrt m t (infinity64 false) = infinity64 false ∧
    isNaN64 (fadd m t n y) = true ∧ isNaN64 (fadd m t y n) = true ∧ isNaN64 (fsub m t n y) = true ∧ isNaN64 (fsub m t y n) = true ∧
    isNaN64 (fmul m t n y) = true ∧ isNaN64 (fmul m t y n) = true ∧ isNaN64 (fdiv m t n y) = true ∧ isNaN64 (fdiv m t y n) = true ∧
    isNaN64 (fsqrt m t n) = true

/-- Integer conversion: zero gives `+0`; -2^63 is `0xC3E0000000000000`; every other 64-bit integer gives a normal number of its sign,
which is what `ROUND_MODE` picks for it; a magnitude of at most 2^53 is exact (40_numerics.md R66, R71; decisions D3, D21, logs 7,
24). -/
def Obligations.IntegerConversion : Prop :=
  ∀ m : Config.RoundMode,
    intToB64 m 0 = 0x0000000000000000#64 ∧
    intToB64 m (-2 ^ 63) = 0xC3E0000000000000#64 ∧
    (∀ n : Int, -2 ^ 63 ≤ n → n < 2 ^ 63 → n ≠ 0 →
      isNormal64 (intToB64 m n) = true ∧ sign64 (intToB64 m n) = decide (n < 0) ∧
      ∀ z : B64, isFinite64 z = true →
        m.Picks ((n : ℝ) * 2 ^ 1074) (value64 (intToB64 m n)) ((intToB64 m n).getLsbD 0 = false) (value64 z)) ∧
    (∀ n : Int, -2 ^ 53 ≤ n → n ≤ 2 ^ 53 → value64 (intToB64 m n) = n * 2 ^ 1074)
end

