-- ==== Sys2Proof/Laws/PerInstr.lean ====
section
/-! SUPPORT. One family of statements about each instruction as syntax: its word is one that recognition accepts. -/

namespace Sys2Proof.Laws.Recognised

/-- The instruction's word has the fixed bits of its format: `I[7:4] = 0001`, and `I[15:12]` is 0011 for COGET, 0010 for COSET
(30_encoding.md R41, R42, R44). -/
def Statement (i : Instr) : Prop :=
  (encode i).extractLsb' 4 4 = 0b0001#4 ∧
    ((encode i).extractLsb' 12 4 = 0b0011#4 ∨ (encode i).extractLsb' 12 4 = 0b0010#4)

/-- An instruction whose format is one of the two is recognised. -/
theorem of_format (i : Instr) (h : i.format = 0b0011#4 ∨ i.format = 0b0010#4) : Statement i := by
  obtain ⟨h1, -, h3, -⟩ := word_fields i.format i.number 0b0001#4 i.reg
  exact ⟨h3, by rw [encode, h1]; exact h⟩

theorem cogetCostat (dst : RegNum) : Statement (.cogetCostat dst) := of_format _ (.inl rfl)
theorem cogetFplow (dst : RegNum) : Statement (.cogetFplow dst) := of_format _ (.inl rfl)
theorem cogetFpa (dst : RegNum) (k : Accumulator) : Statement (.cogetFpa dst k) := of_format _ (.inl rfl)
theorem cogetFpneg (dst : RegNum) (k : Accumulator) : Statement (.cogetFpneg dst k) := of_format _ (.inl rfl)
theorem cogetFpabs (dst : RegNum) (k : Accumulator) : Statement (.cogetFpabs dst k) := of_format _ (.inl rfl)
theorem cogetUndefined (dst : RegNum) (number : CopNum) : Statement (.cogetUndefined dst number) :=
  of_format _ (.inl rfl)
theorem cosetCostat (src : RegNum) : Statement (.cosetCostat src) := of_format _ (.inr rfl)
theorem cosetFplow (src : RegNum) : Statement (.cosetFplow src) := of_format _ (.inr rfl)
theorem cosetFpa (src : RegNum) (k : Accumulator) : Statement (.cosetFpa src k) := of_format _ (.inr rfl)
theorem cosetFpint (src : RegNum) (k : Accumulator) : Statement (.cosetFpint src k) := of_format _ (.inr rfl)
theorem cosetFpsqrt (src : RegNum) (k : Accumulator) : Statement (.cosetFpsqrt src k) := of_format _ (.inr rfl)
theorem cosetFpadd (src : RegNum) (k : Accumulator) : Statement (.cosetFpadd src k) := of_format _ (.inr rfl)
theorem cosetFpsub (src : RegNum) (k : Accumulator) : Statement (.cosetFpsub src k) := of_format _ (.inr rfl)
theorem cosetFpmul (src : RegNum) (k : Accumulator) : Statement (.cosetFpmul src k) := of_format _ (.inr rfl)
theorem cosetFpdiv (src : RegNum) (k : Accumulator) : Statement (.cosetFpdiv src k) := of_format _ (.inr rfl)

end Sys2Proof.Laws.Recognised
end

