-- ==== Sys2Proof/Tests/Slice0.lean ====
section
/-! SUPPORT. The model's own tests: ill-formed terms, words written bit by bit from 30_encoding.md R41 and R42, one step on a small
state for each instruction with results from 95_test_vectors.md, and for each obligation with hypotheses a witness that meets
them. -/

namespace Sys2Proof.Tests

open Sys2Proof Sys2Proof.Machine

/-! ### Well-formedness -/

/-- R48: numbers 0 to 7 of COGET have a meaning, so they are no undefined operation. -/
theorem test_undefined_number_below_8_is_ill_formed :
    (Instr.cogetUndefined 5 0).wellFormed = false ∧ (Instr.cogetUndefined 5 7).wellFormed = false ∧
    (Instr.cogetUndefined 5 8).wellFormed = true ∧ (Instr.cogetUndefined 5 15).wellFormed = true := by decide

/-! ### Words written bit by bit: format, coprocessor register number, 0001, CPU register (R41, R42, R45) -/

theorem test_decode_cogetCostat : decodeWord 0b0011_0000_0001_1111#16 = .ok (.cogetCostat 15) := by decide
theorem test_decode_cogetFplow : decodeWord 0b0011_0001_0001_0101#16 = .ok (.cogetFplow 5) := by decide
theorem test_decode_cogetFpa :
    decodeWord 0b0011_0010_0001_0010#16 = .ok (.cogetFpa 2 .fpa0) ∧
    decodeWord 0b0011_0011_0001_0100#16 = .ok (.cogetFpa 4 .fpa1) := by decide
theorem test_decode_cogetFpneg : decodeWord 0b0011_0100_0001_0100#16 = .ok (.cogetFpneg 4 .fpa0) := by decide
theorem test_decode_cogetFpabs : decodeWord 0b0011_0111_0001_1111#16 = .ok (.cogetFpabs 15 .fpa1) := by decide
theorem test_decode_cogetUndefined :
    decodeWord 0b0011_1000_0001_0000#16 = .ok (.cogetUndefined 0 8) ∧
    decodeWord 0b0011_1111_0001_1111#16 = .ok (.cogetUndefined 15 15) := by decide
theorem test_decode_cosetCostat : decodeWord 0b0010_0000_0001_0000#16 = .ok (.cosetCostat 0) := by decide
theorem test_decode_cosetFplow : decodeWord 0b0010_0001_0001_0111#16 = .ok (.cosetFplow 7) := by decide
theorem test_decode_cosetFpa : decodeWord 0b0010_0010_0001_0000#16 = .ok (.cosetFpa 0 .fpa0) := by decide
theorem test_decode_cosetFpint : decodeWord 0b0010_0101_0001_0100#16 = .ok (.cosetFpint 4 .fpa1) := by decide
theorem test_decode_cosetFpsqrt : decodeWord 0b0010_0110_0001_0010#16 = .ok (.cosetFpsqrt 2 .fpa0) := by decide
theorem test_decode_cosetFpadd : decodeWord 0b0010_1001_0001_0100#16 = .ok (.cosetFpadd 4 .fpa1) := by decide
theorem test_decode_cosetFpsub : decodeWord 0b0010_1010_0001_0010#16 = .ok (.cosetFpsub 2 .fpa0) := by decide
theorem test_decode_cosetFpmul : decodeWord 0b0010_1101_0001_0100#16 = .ok (.cosetFpmul 4 .fpa1) := by decide
theorem test_decode_cosetFpdiv : decodeWord 0b0010_1111_0001_1111#16 = .ok (.cosetFpdiv 15 .fpa1) := by decide

/-- 2.1: words that are neither COGET nor COSET. -/
theorem test_decode_other_words :
    [0x3000#16, 0x2020#16, 0x1010#16, 0x4010#16, 0x0000#16, 0xFFFF#16].map decodeWord =
      [0x3000#16, 0x2020#16, 0x1010#16, 0x4010#16, 0x0000#16, 0xFFFF#16].map
        (fun w => .error (.notACoprocessorInstruction w)) := by decide

/-- 2.1: bytes lie low byte first (D15). -/
theorem test_encodeBytes : encodeBytes (.cosetFpdiv 2 .fpa0) = [0x12#8, 0x2E#8] := by decide

theorem test_decodeTableWord :
    decodeTableWord 16 0x3514 = some (.cogetFpneg 4 .fpa1) ∧ decodeTableWord 16 0x3514 ≠ decodeTableWord 16 0x3414 ∧
    decodeTableWord 16 0x3000 = none := by decide

/-! ### One step on a small state -/

/-- The state after reset with this COSTAT. -/
def unit (costat : Word) : State := { State.reset with costat := costat }

/-- "short" of 95_test_vectors.md. -/
def shortUnit : State := unit 0x00000102#32

/-- "long" of 95_test_vectors.md. -/
def longUnit : State := unit 0x00001102#32

/-- Runs the word as the next instruction and reads one thing off the next state. -/
def after {α : Type} (s : State) (word : Nat) (field : State → α) : Option α :=
  match step (s.withFetchWord 16 word) with
  | .next t => some (field t)
  | _ => none

/-- Runs the word as the next instruction and answers its fault. -/
def faultOf (s : State) (word : Nat) : Option Fault :=
  match step (s.withFetchWord 16 word) with
  | .fault f => some f
  | _ => none

/-- 2.2: no fault although the unit is off; `pc + 2`. -/
theorem test_step_cogetCostat :
    after (unit 0x00001100#32) 0x3015 (fun t => (t.readReg 5, t.pc)) = some (0x00001100#32, 2#32) := by decide +kernel

/-- 2.2: reading into r[0] changes no register. -/
theorem test_step_cogetCostat_r0 : after longUnit 0x3010 (·.regs) = some longUnit.regs := by decide +kernel

/-- 2.2: all ones keep the storage bits, and bit 1 set keeps the accumulators. -/
theorem test_step_cosetCostat :
    after ({ longUnit with fpa0 := 0x3FF8000000000000#64 }.writeReg 1 0xFFFFFFFF#32) 0x2011 (fun t => (t.costat, t.fpa0)) =
      some (0x0000F7FF#32, 0x3FF8000000000000#64) := by decide +kernel

/-- 2.2, D13: turning the unit off draws what it held. -/
theorem test_step_cosetCostat_off :
    after longUnit 0x2010 (fun t => (t.costat, t.fpa0)) = some (0x00000000#32, Config.freeFpa0 0) := rfl

/-- E5. -/
theorem test_step_cogetFplow :
    after { longUnit with fplow := 0x54442D18#32 } 0x3113 (·.readReg 3) = some 0x54442D18#32 := by decide +kernel

/-- E4. -/
theorem test_step_cosetFplow :
    after (longUnit.writeReg 3 0x54442D18#32) 0x2113 (·.fplow) = some 0x54442D18#32 := by decide +kernel

/-- 2.6, long: the smallest un-normalized number; Z looks at all 64 bits (D5). -/
theorem test_step_cogetFpa_long :
    after { longUnit with fpa1 := 0x0000000000000001#64 } 0x3314 (fun t => (t.readReg 4, t.fplow, t.cc)) =
      some (0x00000000#32, 0x00000001#32, ⟨false, false, false, false⟩) := by decide +kernel

/-- 2.6, short: -1e39 overflows to -infinity, NZVC = 1001. -/
theorem test_step_cogetFpa_short :
    after { shortUnit with fpa1 := 0xC8078287F49C4A1D#64 } 0x3314 (fun t => (t.readReg 4, t.cc)) =
      some (0xFF800000#32, ⟨true, false, false, true⟩) := by decide +kernel

/-- E4 in long mode. -/
theorem test_step_cosetFpa_long :
    after ({ longUnit with fplow := 0x54442D18#32 }.writeReg 4 0x400921FB#32) 0x2314 (fun t => (t.fpa1, t.fpa0, t.fplow)) =
      some (0x400921FB54442D18#64, 0#64, 0x54442D18#32) := by decide +kernel

/-- 2.5, short: the smallest un-normalized short number is normal in long form. -/
theorem test_step_cosetFpa_short :
    after (shortUnit.writeReg 3 0x00000001#32) 0x2213 (·.fpa0) = some 0x36A0000000000000#64 := by decide +kernel

/-- 2.7, long: the negative of +0. -/
theorem test_step_cogetFpneg_long :
    after longUnit 0x3414 (fun t => (t.readReg 4, t.fplow, t.cc)) =
      some (0x80000000#32, 0x00000000#32, ⟨true, false, false, false⟩) := by decide +kernel

/-- 2.7, short: pi. -/
theorem test_step_cogetFpneg_short :
    after { shortUnit with fpa0 := 0x400921FB54442D18#64 } 0x3416 (fun t => (t.readReg 6, t.fpa0)) =
      some (0xC0490FDB#32, 0x400921FB54442D18#64) := by decide +kernel

/-- 2.7, long: -infinity. -/
theorem test_step_cogetFpabs_long :
    after { longUnit with fpa1 := 0xFFF0000000000000#64 } 0x3713 (fun t => (t.readReg 3, t.cc)) =
      some (0x7FF00000#32, ⟨false, false, false, true⟩) := by decide +kernel

/-- 2.7, short: -2.5. -/
theorem test_step_cogetFpabs_short :
    after { shortUnit with fpa0 := 0xC004000000000000#64 } 0x3613 (fun t => (t.readReg 3, t.cc)) =
      some (0x40200000#32, ⟨false, false, false, false⟩) := by decide +kernel

/-- 2.3: availability is tested before the undefined operation. -/
theorem test_step_cogetUndefined :
    faultOf (unit 0x00000000#32) 0x3C13 = some (.coprocessorUnavailable 0x3C13#16 0x00000000#32) ∧
    faultOf shortUnit 0x3C13 = some (.undefinedCoprocessorOperation 0x3C13#16 0x00000102#32) := by decide +kernel

/-- 2.3: enabled and not selected, selected and not enabled, another one selected. -/
theorem test_availability :
    ([0x00000000#32, 0x00000002#32, 0x00000100#32, 0x00001202#32, 0x00000104#32].map fun c => (unit c).available) =
      [false, false, false, false, false] ∧
    ([0x00000106#32, 0x0000E102#32].map fun c => ((unit c).available, (unit c).long)) =
      [(true, false), (true, false)] := by decide +kernel

/-- 2.8, long: 2^53 + 1, a tie to even. -/
theorem test_step_cosetFpint_long :
    after ({ longUnit with fplow := 0x00000001#32 }.writeReg 4 0x00200000#32) 0x2514 (·.fpa1) =
      some 0x4340000000000000#64 := by decide +kernel

/-- 2.8, short: -2^31. -/
theorem test_step_cosetFpint_short :
    after (shortUnit.writeReg 3 0x80000000#32) 0x2513 (·.fpa1) = some 0xC1E0000000000000#64 := by decide +kernel

/-- 2.9: the square roots of 2.0 and of -0. -/
theorem test_step_cosetFpsqrt :
    after (shortUnit.writeReg 3 0x40000000#32) 0x2713 (·.fpa1) = some 0x3FF6A09E667F3BCD#64 ∧
    after (shortUnit.writeReg 3 0x80000000#32) 0x2713 (·.fpa1) = some 0x8000000000000000#64 := by decide +kernel

/-- 2.10: 0.1 + 0.2. -/
theorem test_step_cosetFpadd :
    after ({ longUnit with fplow := 0x9999999A#32, fpa1 := 0x3FB999999999999A#64 }.writeReg 4 0x3FC99999#32) 0x2914 (·.fpa1) =
      some 0x3FD3333333333334#64 := by decide +kernel

/-- 2.10: the pair of vectors that tells the two readings of D2 apart. -/
theorem test_step_cosetFpadd_short :
    let s := { shortUnit with fpa1 := 0x3FF0000000000000#64 }.writeReg 3 0x33800000#32
    after s 0x2913 (·.fpa1) = some 0x3FF0000010000000#64 ∧
    after { s with params := { shortRoundsAccumulator := true } } 0x2913 (·.fpa1) = some 0x3FF0000000000000#64 := by
  decide +kernel

/-- `ROUND_MODE` cut off: 0.1 + 0.2 ends one below the vector of 2.10, whose exact sum lies between the two. -/
theorem test_step_cosetFpadd_towardZero :
    after ({ longUnit with fplow := 0x9999999A#32, fpa1 := 0x3FB999999999999A#64, params := { roundMode := .towardZero } }.writeReg
      4 0x3FC99999#32) 0x2914 (·.fpa1) = some 0x3FD3333333333333#64 := by decide +kernel

/-- E17: 1.0 - 2.0, the codes unchanged. -/
theorem test_step_cosetFpsub :
    let s := { shortUnit with fpa1 := 0x3FF0000000000000#64, cc := ⟨false, true, true, true⟩ }
    after (s.writeReg 3 0x40000000#32) 0x2B13 (fun t => (t.fpa1, t.cc)) =
      some (0xBFF0000000000000#64, ⟨false, true, true, true⟩) := by decide +kernel

/-- 2.11: 2^(-1074) times 0.5, a tie to even, and times 0.75. -/
theorem test_step_cosetFpmul :
    let s := { longUnit with fpa1 := 0x0000000000000001#64 }
    after (s.writeReg 4 0x3FE00000#32) 0x2D14 (·.fpa1) = some 0x0000000000000000#64 ∧
    after (s.writeReg 4 0x3FE80000#32) 0x2D14 (·.fpa1) = some 0x0000000000000001#64 := by decide +kernel

/-- 2.12: 1.0 / 3.0, and 1.0 / -0 without a fault. -/
theorem test_step_cosetFpdiv :
    let s := { shortUnit with fpa1 := 0x3FF0000000000000#64 }
    after (s.writeReg 3 0x40400000#32) 0x2F13 (·.fpa1) = some 0x3FD5555555555555#64 ∧
    after (s.writeReg 3 0x80000000#32) 0x2F13 (·.fpa1) = some 0xFFF0000000000000#64 := by decide +kernel

/-- R55: the literal whose word 90_conflicts.md C12 settles. -/
theorem test_literal : lifValue ['-', '1', '2', '3', '.', '4', '5', 'E', '+', '7'] = some 0xCE9329F3#32 := by decide +kernel

/-! ### Witnesses: states and operands that meet the hypotheses of each obligation -/

theorem witness_DecodeOfEncode : (Instr.cogetUndefined 0 8).WellFormed ∧ (Instr.cosetFpdiv 15 .fpa1).WellFormed := by decide

theorem witness_EncodeOfDecode : decodeWord 0x3F1F#16 = .ok (.cogetUndefined 15 15) := by decide

/-- One word for each clause. -/
theorem witness_RecognitionByMask :
    0x3F1F#16 &&& 0xF0F0#16 = 0x3010#16 ∧ 0x2F1F#16 &&& 0xF0F0#16 = 0x2010#16 ∧
    0x3000#16 &&& 0xF0F0#16 ≠ 0x3010#16 ∧ 0x3000#16 &&& 0xF0F0#16 ≠ 0x2010#16 := by decide

/-- Two instructions of one row, which meet the second clause's hypothesis as well. -/
theorem witness_OpcodeTableRowsApart :
    (Instr.cogetUndefined 0 8).WellFormed ∧ (Instr.cogetUndefined 15 15).WellFormed ∧
    encode (.cogetUndefined 15 15) &&& (Instr.cogetUndefined 0 8).rowMask = (Instr.cogetUndefined 0 8).rowMatch := by decide

/-- `COGET R1,COSTAT` at the last two bytes of memory. -/
def lastWord : State := { State.reset with pc := 0xFFFFFFFE#32 }.withFetchWord 16 0x3011

theorem witness_StepRunsDecodedInstruction :
    lastWord.pcAligned ∧ Memory.read lastWord.mem lastWord.pc.toNat = some 0x11#8 ∧
    Memory.read lastWord.mem (lastWord.pc + 1#32).toNat = some 0x30#8 ∧
    decode [0x11#8, 0x30#8] = .ok (.cogetCostat 1, []) := by decide +kernel

/-- An odd `pc`; both bytes missing; only the second byte missing. -/
theorem witness_FetchStops :
    { State.reset with pc := 1#32 }.pc.getLsbD 0 = true ∧ State.reset.pcAligned ∧
    Memory.read State.reset.mem State.reset.pc.toNat = none ∧
    Memory.read { State.reset with mem := [(0, 0x10#8)] }.mem (State.reset.pc + 1#32).toNat = none := by decide +kernel

theorem witness_PlacedWordRunsNext :
    State.reset.pcAligned ∧ decodeTableWord 16 0x2011 = some (.cosetCostat 1) ∧
    7 ≠ State.reset.pc.toNat ∧ 7 ≠ (State.reset.pc + 1#32).toNat := by decide +kernel

/-- A word over the end of the address space, and a byte outside it. -/
theorem witness_MemoryReadAfterWrite :
    4 ≤ 4 ∧ ∀ j < 4, 2 ≠ ((0xFFFFFFFE#32 : Word) + BitVec.ofNat 32 j).toNat := by decide +kernel

theorem witness_StepKeepsInv : lastWord.Inv ∧ ∃ t, step lastWord = .next t :=
  ⟨⟨by decide +kernel, by decide +kernel, by decide +kernel, by decide +kernel⟩, _, rfl⟩

/-- Both faults, each with its own conditions. -/
theorem witness_ExecStopsExactly :
    (Instr.cosetFpadd 3 .fpa1).WellFormed ∧ (Instr.cosetFpadd 3 .fpa1).number ≠ 0#4 ∧ (unit 0#32).available = false ∧
    (Instr.cogetUndefined 3 8).WellFormed ∧ (Instr.cogetUndefined 3 8).format = 0b0011#4 ∧
    (Instr.cogetUndefined 3 8).number.msb = true ∧ shortUnit.available = true := by decide +kernel

theorem witness_CompletionFrame :
    (∃ t, exec (.cosetFpdiv 3 .fpa1) shortUnit = .next t) ∧ ∀ src, Instr.cosetFpdiv 3 .fpa1 ≠ .cosetCostat src :=
  ⟨⟨_, rfl⟩, fun _ h => by cases h⟩

/-- COGET of COSTAT, and COGET of FPLOW in long mode, with a register that is not the destination. -/
theorem witness_CogetFrame :
    (Instr.cogetCostat 5).format = 0b0011#4 ∧ (Instr.cogetCostat 5).number = 0#4 ∧
    (∃ t, exec (.cogetCostat 5) longUnit = .next t) ∧
    (Instr.cogetFplow 15).format = 0b0011#4 ∧ (Instr.cogetFplow 15).number = 1#4 ∧ longUnit.long = true ∧
    (14 : RegNum) ≠ (Instr.cogetFplow 15).reg ∧ (∃ t, exec (.cogetFplow 15) longUnit = .next t) :=
  ⟨rfl, rfl, ⟨_, rfl⟩, rfl, rfl, rfl, by decide, ⟨_, rfl⟩⟩

/-- A load of one accumulator: the other one is not named. -/
theorem witness_CosetFrame :
    (Instr.cosetFpa 3 .fpa0).format = 0b0010#4 ∧ (∃ t, exec (.cosetFpa 3 .fpa0) longUnit = .next t) ∧
    (Instr.cosetFpa 3 .fpa0).number ≠ 0#4 ∧ (Instr.cosetFpa 3 .fpa0).accumulator ≠ some .fpa1 :=
  ⟨rfl, ⟨_, rfl⟩, by decide, by decide⟩

theorem witness_OtherAccumulatorNeitherReadNorWritten :
    (Instr.cogetFpneg 0 .fpa1).accumulator = some .fpa1 ∧ (Instr.cosetFpmul 0 .fpa0).accumulator = some .fpa0 := by decide

/-- Long mode, and short mode with the parameter at its default. -/
theorem witness_WhichOperandIsWhich :
    longUnit.available = true ∧ longUnit.long = true ∧ shortUnit.available = true ∧
    shortUnit.params.shortRoundsAccumulator = false := by decide +kernel

/-- Bit 1 written set; bit 1 written clear with the parameter set; bit 1 written clear without. -/
theorem witness_CosetCostatResult :
    ((longUnit.writeReg 1 0x2#32).readReg 1 &&& costatImplMask longUnit.params).getLsbD 1 = true ∧
    (longUnit.readReg 0 &&& costatImplMask longUnit.params).getLsbD 1 = false ∧
    longUnit.params.fpuStateSurvivesDisable = false ∧
    { longUnit with params := { fpuStateSurvivesDisable := true } }.params.fpuStateSurvivesDisable = true := by decide +kernel

theorem witness_CostatReadsBack : (1 : RegNum) ≠ 0#4 := by decide

theorem witness_RegisterZeroAndTheOthers : (15 : RegNum) ≠ 0#4 ∧ (0 : RegNum) ≠ 15 := by decide

/-- The hypotheses of the three clauses that each statement of one rule has: unavailable; available and long; available and
short. -/
abbrev EachClauseIsMet : Prop :=
  (unit 0x00001202#32).available = false ∧ (longUnit.available = true ∧ longUnit.long = true) ∧
  (shortUnit.available = true ∧ shortUnit.long = false)

theorem witness_CogetFplowResult : EachClauseIsMet := by decide +kernel
theorem witness_CosetFplowResult : EachClauseIsMet := witness_CogetFplowResult
theorem witness_CogetFpaResult : EachClauseIsMet := witness_CogetFplowResult
theorem witness_CogetFpnegResult : EachClauseIsMet := witness_CogetFplowResult
theorem witness_CogetFpabsResult : EachClauseIsMet := witness_CogetFplowResult
theorem witness_CogetUndefinedStops : EachClauseIsMet := witness_CogetFplowResult
theorem witness_CosetFpaResult : EachClauseIsMet := witness_CogetFplowResult
theorem witness_CosetFpintResult : EachClauseIsMet := witness_CogetFplowResult
theorem witness_CosetFpsqrtResult : EachClauseIsMet := witness_CogetFplowResult
theorem witness_CosetFpaddResult : EachClauseIsMet := witness_CogetFplowResult
theorem witness_CosetFpsubResult : EachClauseIsMet := witness_CogetFplowResult
theorem witness_CosetFpmulResult : EachClauseIsMet := witness_CogetFplowResult
theorem witness_CosetFpdivResult : EachClauseIsMet := witness_CogetFplowResult

theorem witness_LongLoadThenReadIsExact :
    longUnit.available = true ∧ longUnit.long = true ∧ (1 : RegNum) ≠ 0#4 := by decide +kernel

theorem witness_LongMoveBetweenAccumulators :
    longUnit.available = true ∧ longUnit.long = true ∧ (15 : RegNum) ≠ 0#4 ∧ Accumulator.fpa0 ≠ .fpa1 := by decide +kernel

/-- An infinity is no NaN. -/
theorem witness_ShortLoadThenReadIsExact :
    shortUnit.available = true ∧ shortUnit.long = false ∧ (1 : RegNum) ≠ 0#4 ∧
    isNaN32 ((shortUnit.writeReg 3 0x7F800000#32).readReg 3) = false := by decide +kernel

/-- A short unit with "long" in r[1], a long unit with "short" in r[1]. -/
theorem witness_FormatConversionByMode :
    let s := shortUnit.writeReg 1 0x00001102#32
    let l := longUnit.writeReg 1 0x00000102#32
    (3 : RegNum) ≠ 0#4 ∧ s.available = true ∧ s.long = false ∧ s.readReg 1 &&& 0x00001702#32 = 0x00001102#32 ∧
    l.available = true ∧ l.long = true ∧ l.readReg 1 &&& 0x00001702#32 = 0x00000102#32 := by decide +kernel

theorem witness_BranchConditionsReportRelationToZero :
    longUnit.available = true ∧ longUnit.long = true ∧
    isFinite64 ({ longUnit with fpa1 := 0x0000000000000001#64 }.fpa .fpa1) = true := by decide +kernel

theorem witness_WidenIsExact : isFinite32 0x7F7FFFFF#32 = true ∧ isFinite32 0x00000001#32 = true := by decide +kernel

/-- A short NaN, a long NaN, and a number that is none. -/
theorem witness_ConversionOfSpecialValues :
    isNaN32 0xFF800001#32 = true ∧ isNaN64 0x7FF0000000000001#64 = true ∧ isNaN64 0x7FF0000000000000#64 = false := by
  decide +kernel

/-- 1 + 2^(-24), half-way between two short numbers: the tie of round to nearest occurs as well. -/
theorem witness_NarrowCorrectlyRounded :
    let y : B64 := 0x3FF0000010000000#64
    let z : B32 := 0x3F800001#32
    isFinite64 y = true ∧ isFinite32 (narrow .nearestEven 0 y) = true ∧ isFinite32 z = true ∧
    |value64 y - value32 (narrow .nearestEven 0 y) * 2 ^ 925| = |value64 y - value32 z * 2 ^ 925| ∧
    value32 z ≠ value32 (narrow .nearestEven 0 y) := by decide +kernel

/-- The two sides of the boundary, in round to nearest and cut off. -/
theorem witness_NarrowOverflowsExactlyFrom :
    isFinite64 0x47EFFFFFF0000000#64 = true ∧ isFinite64 0x47EFFFFFEFFFFFFF#64 = true ∧
    Config.RoundMode.nearestEven.overflows false (2 ^ 1202) (2 ^ 1178) (magnitude64 0x47EFFFFFF0000000#64) 1 = true ∧
    Config.RoundMode.nearestEven.overflows false (2 ^ 1202) (2 ^ 1178) (magnitude64 0x47EFFFFFEFFFFFFF#64) 1 = false ∧
    Config.RoundMode.towardZero.overflows false (2 ^ 1202) (2 ^ 1178) (magnitude64 0x47F0000000000000#64) 1 = true ∧
    Config.RoundMode.towardZero.overflows false (2 ^ 1202) (2 ^ 1178) (magnitude64 0x47EFFFFFFFFFFFFF#64) 1 = false := by
  decide +kernel

theorem witness_SignOperations :
    isNaN64 0xFFF0000000000000#64 = false ∧ Config.RoundMode.nearestEven ≠ .towardPositive ∧
    Config.RoundMode.nearestEven ≠ .towardNegative := by decide +kernel

/-- 2^53 + 1, half-way between two long numbers, as a sum and as a difference: the tie of round to nearest occurs as well. -/
theorem witness_FaddFsubCorrectlyRounded :
    let a : B64 := 0x4340000000000000#64
    let b : B64 := 0x3FF0000000000000#64
    let z : B64 := 0x4340000000000001#64
    isNaN64 b = false ∧ isFinite64 a = true ∧ isFinite64 b = true ∧ isFinite64 z = true ∧
    isFinite64 (fadd .nearestEven 0 a b) = true ∧ isFinite64 (fsub .nearestEven 0 a (negate64 b)) = true ∧
    |value64 a + value64 b - value64 (fadd .nearestEven 0 a b)| = |value64 a + value64 b - value64 z| ∧
    value64 z ≠ value64 (fadd .nearestEven 0 a b) := by decide +kernel

/-- 1.5 times 2^(-1074), half-way between two un-normalized numbers: the tie of round to nearest occurs as well. -/
theorem witness_FmulCorrectlyRounded :
    let a : B64 := 0x3FF8000000000000#64
    let b : B64 := 0x0000000000000001#64
    let z : B64 := 0x0000000000000001#64
    isFinite64 a = true ∧ isFinite64 b = true ∧ isFinite64 z = true ∧ isFinite64 (fmul .nearestEven 0 a b) = true ∧
    |value64 a * value64 b - value64 (fmul .nearestEven 0 a b) * 2 ^ 1074| = |value64 a * value64 b - value64 z * 2 ^ 1074| ∧
    value64 z ≠ value64 (fmul .nearestEven 0 a b) := by decide +kernel

/-- 3 × 2^(-1074) divided by 2, half-way between two un-normalized numbers: the tie of round to nearest occurs as well. -/
theorem witness_FdivCorrectlyRounded :
    let a : B64 := 0x0000000000000003#64
    let b : B64 := 0x4000000000000000#64
    let z : B64 := 0x0000000000000001#64
    isFinite64 a = true ∧ isFinite64 b = true ∧ isZero64 b = false ∧ isFinite64 z = true ∧
    isFinite64 (fdiv .nearestEven 0 a b) = true ∧
    |value64 a * 2 ^ 1074 - value64 (fdiv .nearestEven 0 a b) * value64 b| = |value64 a * 2 ^ 1074 - value64 z * value64 b| ∧
    value64 z ≠ value64 (fdiv .nearestEven 0 a b) := by decide +kernel

theorem witness_FsqrtCorrectlyRounded :
    isFinite64 0x4000000000000000#64 = true ∧ sign64 0x4000000000000000#64 = false ∧
    isFinite64 0x3FF6A09E667F3BCC#64 = true := by decide +kernel

/-- Does the magnitude `n / d` overflow the long format in round to nearest? -/
abbrev overflowsNearest (n d : Nat) : Bool := Config.RoundMode.nearestEven.overflows false (2 ^ 2098) (2 ^ 2045) n d

/-- The sum and the product at 2^1024 - 2^970 itself and just below it. No quotient of two long numbers is 2^1024 - 2^970, so for the
quotient the two nearest to it: (2^1024 - 2^971) / (1 - 2^(-53)) is 2^1024, and the one below has the next smaller dividend. -/
theorem witness_ArithmeticOverflowsExactlyFrom :
    let most : B64 := 0x7FEFFFFFFFFFFFFF#64
    let below1 : B64 := 0x3FEFFFFFFFFFFFFF#64
    -- (2^27 - 1) × 2^500, (2^27 + 1) × 2^470, and the number just below the second
    let a : B64 := 0x60DFFFFFFC000000#64
    let b : B64 := 0x5F00000002000000#64
    let c : B64 := 0x5F00000001FFFFFF#64
    isFinite64 most = true ∧ isFinite64 below1 = true ∧ isFinite64 a = true ∧ isFinite64 b = true ∧ isZero64 below1 = false ∧
    value64 most + value64 0x7C90000000000000#64 = 2 ^ 2098 - 2 ^ 2044 ∧
    overflowsNearest (value64 most + value64 0x7C90000000000000#64).natAbs 1 = true ∧
    overflowsNearest (value64 most + value64 0x7C8FFFFFFFFFFFFF#64).natAbs 1 = false ∧
    magnitude64 a * magnitude64 b = (2 ^ 2098 - 2 ^ 2044) * 2 ^ 1074 ∧
    overflowsNearest (magnitude64 a * magnitude64 b) (2 ^ 1074) = true ∧
    overflowsNearest (magnitude64 a * magnitude64 c) (2 ^ 1074) = false ∧
    overflowsNearest (magnitude64 most * 2 ^ 1074) (magnitude64 below1) = true ∧
    overflowsNearest (magnitude64 0x7FEFFFFFFFFFFFFE#64 * 2 ^ 1074) (magnitude64 below1) = false := by decide +kernel

/-- A negative `x`, as the clause on its square root asks for, a NaN, and a mode of round to nearest. -/
theorem witness_SpecialOperands :
    isFinite64 0x8000000000000001#64 = true ∧ isZero64 0x8000000000000001#64 = false ∧
    sign64 0x8000000000000001#64 = true ∧ isNaN64 0xFFF0000000000001#64 = true ∧
    Config.RoundMode.nearestEven.isNearest = true := by decide +kernel

/-- The ends of both ranges, and a finite number. -/
theorem witness_IntegerConversion :
    (-2 ^ 63 : Int) ≤ -2 ^ 63 ∧ (2 ^ 63 - 1 : Int) < 2 ^ 63 ∧ (2 ^ 63 - 1 : Int) ≠ 0 ∧
    (-2 ^ 53 : Int) ≤ -2 ^ 53 ∧ (2 ^ 53 : Int) ≤ 2 ^ 53 ∧ isFinite64 0x43DFFFFFFFFFFFFF#64 = true := by decide +kernel

end Sys2Proof.Tests
end

section
/-! PROOFS. Family 00_scope.md: the memory operations of R7. -/

namespace Sys2Proof.Machine

/-! ### Read after write over several bytes -/

/-- One byte more: the lowest address gives the low eight bits, the bytes above it the rest of the number. -/
theorem Memory.readLE_succ_of_some {m : Memory} {a : Word} {n rest : Nat} {b : Byte}
    (hlow : Memory.read m a.toNat = some b) (hrest : Memory.readLE m (a + 1#32) n = some rest) :
    Memory.readLE m a (n + 1) = some (b.toNat + 256 * rest) := by
  simp [Memory.readLE, hlow, hrest]

/-- The `n` addresses that follow `a` do not come back round to `a` while `n < 2^32`, whether or not they pass the end of
the address space. -/
theorem toNat_ne_following {n : Nat} (a : Word) (hn : n < 2 ^ 32) :
    ∀ j < n, a.toNat ≠ (a + 1#32 + BitVec.ofNat 32 j).toNat := by
  intro j hj
  simp only [BitVec.toNat_add, BitVec.toNat_ofNat]
  omega

/-- The lowest byte of a `MemWrite` is the low eight bits of the number: the bytes stored after it lie elsewhere. -/
theorem Memory.read_writeLE_first (m : Memory) (a : Word) {n : Nat} (v : Nat) (hn : n < 2 ^ 32) :
    Memory.read (Memory.writeLE m a (n + 1) v) a.toNat = some (BitVec.ofNat 8 v) := by
  rw [Memory.writeLE, Memory.read_writeLE_other _ _ _ _ _ (toNat_ne_following a hn), Memory.read_write_same]

/-- `MemRead` inverts `MemWrite` for every width up to the whole address space; past it the bytes would overwrite
each other. -/
theorem Memory.readLE_writeLE (m : Memory) (a : Word) (n v : Nat) (hn : n ≤ 2 ^ 32) :
    Memory.readLE (Memory.writeLE m a n v) a n = some (v % 256 ^ n) := by
  induction n generalizing m a v with
  | zero => simp [Memory.readLE, Nat.mod_one]
  | succ n ih =>
    have hlow := Memory.read_writeLE_first m a v (show n < 2 ^ 32 by omega)
    have hrest : Memory.readLE (Memory.writeLE m a (n + 1) v) (a + 1#32) n = some (v / 256 % 256 ^ n) :=
      ih _ _ _ (by omega)
    have hsplit : v % 256 ^ (n + 1) = (BitVec.ofNat 8 v).toNat + 256 * (v / 256 % 256 ^ n) := by
      rw [pow_succ', Nat.mod_mul, BitVec.toNat_ofNat]
    rw [hsplit, Memory.readLE_succ_of_some hlow hrest]

/-- Settles O15: read after write holds up to the whole address space, of which four bytes are a case, and the frame is the
law `Memory.read_writeLE_other`. -/
theorem memoryReadAfterWrite : Obligations.MemoryReadAfterWrite := by
  intro m a n v hn
  exact ⟨Memory.readLE_writeLE m a n v (by omega), fun b hb => Memory.read_writeLE_other m a n v b hb⟩

end Sys2Proof.Machine
end

section
/-! PROOFS. Family 10_state.md: what an instruction that completes can do to the state; the invariant, the frames and the
independence of the two accumulators; COSTAT, reset and the CPU registers. -/

namespace Sys2Proof

/-! ### The accumulator an instruction names -/

theorem Accumulator.ne_other (k : Accumulator) : k ≠ k.other := by
  cases k <;> decide

/-- The instructions that name an accumulator are those with `op` from 1: their register number is neither that of COSTAT nor
that of FPLOW. -/
theorem Instr.number_ne_of_accumulator {i : Instr} {k : Accumulator} (h : i.accumulator = some k) :
    i.number ≠ 0#4 ∧ i.number ≠ 1#4 := by
  have hop : ∃ op : BitVec 3, op ≠ 0#3 ∧ i.number = op ++ k.bit := by
    cases i <;> cases h <;> exact ⟨_, by decide, rfl⟩
  obtain ⟨op, hne, hnumber⟩ := hop
  rw [hnumber]
  clear hnumber
  cases k <;> revert op <;> decide

end Sys2Proof

namespace Sys2Proof.Machine

/-! ### What a completed instruction can do -/

/-- The ways an instruction can complete, with the values it delivers or stores left open. A COGET writes its CPU register,
the codes and FPLOW; a COSET writes COSTAT, FPLOW, or the accumulator it names and FPLOW. -/
inductive Completion : Instr → State → State → Prop where
  | coget {i : Instr} {s : State} (v low : Word) (cc : CondCodes) (hformat : i.format = 0b0011#4)
      (hcostat : i.number = 0#4 → low = s.fplow) (hfplow : i.number = 1#4 → s.long = true → low = s.fplow) :
      Completion i s { s.writeReg i.reg v with fplow := low, cc := cc }.complete
  | cosetCostat (src : RegNum) (s : State) :
      Completion (.cosetCostat src) s (s.writeCostat (s.readReg src)).complete
  | cosetFplow (src : RegNum) (s : State) (low : Word) :
      Completion (.cosetFplow src) s { s with fplow := low }.complete
  | cosetFpa {i : Instr} {s : State} (k : Accumulator) (y : B64) (hformat : i.format = 0b0010#4)
      (hnames : i.accumulator = some k) : Completion i s (s.loadFpa k y).complete

/-- An access behind the availability check completes only as the access itself does. -/
theorem Completion.of_ifAvailable {i : Instr} {s t u : State} (h : s.ifAvailable i (.next u) = .next t)
    (hu : Completion i s u) : Completion i s t := by
  obtain ⟨-, hnext⟩ := (State.ifAvailable_next_iff ..).mp h
  cases hnext
  exact hu

theorem Completion.coget_of_fplow_kept {i : Instr} (s : State) (v : Word) (cc : CondCodes)
    (hformat : i.format = 0b0011#4) : Completion i s { s.writeReg i.reg v with cc := cc }.complete :=
  .coget v (s.writeReg i.reg v).fplow cc hformat (fun _ => s.writeReg_fplow _ v) (fun _ _ => s.writeReg_fplow _ v)

/-- A COGET that names an accumulator may leave anything in FPLOW. -/
theorem Completion.coget_of_accumulator {i : Instr} {k : Accumulator} (s : State) (v low : Word) (cc : CondCodes)
    (hformat : i.format = 0b0011#4) (hnames : i.accumulator = some k) :
    Completion i s { s.writeReg i.reg v with fplow := low, cc := cc }.complete := by
  obtain ⟨h0, h1⟩ := Instr.number_ne_of_accumulator hnames
  exact .coget v low cc hformat (absurd · h0) (absurd · h1)

theorem Completion.of_deliver {i : Instr} {k : Accumulator} (s : State) (y : B64) (hformat : i.format = 0b0011#4)
    (hnames : i.accumulator = some k) : Completion i s (s.deliver y i.reg).complete := by
  unfold State.deliver
  split
  · exact .coget_of_accumulator s _ _ _ hformat hnames
  · exact .coget_of_accumulator s _ _ _ hformat hnames

/-- What any instruction can do, said once: if it completes, it does so in one of the four ways. -/
theorem exec_completion {i : Instr} {s t : State} (h : exec i s = .next t) : Completion i s t := by
  cases i with
  | cogetCostat dst =>
    cases h
    exact .coget_of_fplow_kept s _ _ rfl
  | cogetFplow dst =>
    refine .of_ifAvailable h ?_
    split
    · exact .coget_of_fplow_kept s _ _ rfl
    · next hshort => exact .coget _ _ _ rfl (fun hnumber => by cases hnumber) (fun _ hlong => absurd hlong hshort)
  | cogetFpa dst k => exact .of_ifAvailable h (.of_deliver s _ rfl rfl)
  | cogetFpneg dst k => exact .of_ifAvailable h (.of_deliver s _ rfl rfl)
  | cogetFpabs dst k =>
    refine .of_ifAvailable h ?_
    split
    · exact .coget_of_accumulator s _ _ _ rfl rfl
    · exact .coget_of_accumulator s _ _ _ rfl rfl
  | cogetUndefined dst number =>
    obtain ⟨-, hnext⟩ := (State.ifAvailable_next_iff ..).mp h
    cases hnext
  | cosetCostat src =>
    cases h
    exact .cosetCostat src s
  | cosetFplow src => exact .of_ifAvailable h (.cosetFplow src s _)
  | cosetFpa src k => exact .of_ifAvailable h (.cosetFpa k _ rfl rfl)
  | cosetFpint src k => exact .of_ifAvailable h (.cosetFpa k _ rfl rfl)
  | cosetFpsqrt src k => exact .of_ifAvailable h (.cosetFpa k _ rfl rfl)
  | cosetFpadd src k => exact .of_ifAvailable h (.cosetFpa k _ rfl rfl)
  | cosetFpsub src k => exact .of_ifAvailable h (.cosetFpa k _ rfl rfl)
  | cosetFpmul src k => exact .of_ifAvailable h (.cosetFpa k _ rfl rfl)
  | cosetFpdiv src k => exact .of_ifAvailable h (.cosetFpa k _ rfl rfl)

/-! ### What every completed instruction leaves unchanged -/

/-- Settles O20: each of the four ways to complete writes neither memory nor the parameters, and one of them COSTAT. -/
theorem completionFrame : Obligations.CompletionFrame := by
  intro i s t h
  cases exec_completion h with
  | coget => simp
  | cosetCostat => simp
  | cosetFplow => simp
  | cosetFpa => simp

/-- Settles O22: a COGET completes in the first of the four ways. -/
theorem cogetFrame : Obligations.CogetFrame := by
  intro i s t hcoget h
  cases exec_completion h with
  | coget v low cc hformat hcostat hfplow =>
    refine ⟨by simp, by simp, by simp, by simp, fun r hr => ?_, rfl, hcostat, hfplow⟩
    exact State.readReg_writeReg_other s i.reg r v hr
  | cosetCostat => cases hcoget
  | cosetFplow => cases hcoget
  | cosetFpa k y hformat hnames => exact absurd (hcoget.symm.trans hformat) (by decide)

/-- Settles O23: a COSET completes in one of the last three ways. -/
theorem cosetFrame : Obligations.CosetFrame := by
  intro i s t hcoset h
  cases exec_completion h with
  | coget v low cc hformat hcostat hfplow => exact absurd (hcoset.symm.trans hformat) (by decide)
  | cosetCostat src =>
    refine ⟨by simp, fun r => ?_, by simp, fun hnumber => absurd rfl hnumber⟩
    exact State.readReg_congr _ _ r (by simp)
  | cosetFplow src s low => exact ⟨rfl, fun _ => rfl, fun _ => rfl, fun _ => ⟨rfl, fun k _ => by cases k <;> rfl⟩⟩
  | cosetFpa k y hformat hnames =>
    refine ⟨by simp, fun r => ?_, by simp, fun _ => ⟨by simp, fun j hj => ?_⟩⟩
    · exact State.readReg_congr _ _ r (by simp)
    · rw [hnames] at hj
      rw [State.complete_fpa, State.loadFpa_fpa_other s k j y (fun e => hj (e ▸ rfl))]

/-! ### The invariant -/

/-- A step that answers a next state has fetched a word, decoded it and run the instruction. -/
theorem exec_of_step {s t : State} (h : step s = .next t) :
    ∃ w i, s.fetchWord = .ok w ∧ decodeWord w = .ok i ∧ exec i s = .next t := by
  unfold step at h
  split at h
  · cases h
  · next w hfetch =>
    split at h
    · next i hdecode => exact ⟨w, i, hfetch, hdecode, h⟩
    · cases h

/-- `pc + 2` is even when `pc` is, also where it wraps. -/
theorem getLsbD_zero_add_two (a : Word) : (a + 2#32).getLsbD 0 = a.getLsbD 0 := by
  simp only [BitVec.getLsbD, BitVec.toNat_add, BitVec.toNat_ofNat, Nat.testBit_zero]
  rw [decide_eq_decide]
  omega

/-- No bit outside the mask is set in a word within it. -/
theorem and_mask_and_not_mask (v m : Word) : v &&& m &&& ~~~m = 0#32 := by
  rw [BitVec.and_assoc, BitVec.and_not_self]
  exact BitVec.and_zero

theorem exec_regs_zero {i : Instr} {s t : State} (h : exec i s = .next t) : t.regs[0] = s.regs[0] := by
  cases exec_completion h with
  | coget v low cc hformat hcostat hfplow => exact s.writeReg_regs_zero i.reg v
  | cosetCostat => simp
  | cosetFplow => rfl
  | cosetFpa => simp

theorem exec_costatWithinMask {i : Instr} {s t : State} (h : exec i s = .next t) (hs : s.costatWithinMask) :
    t.costatWithinMask := by
  cases exec_completion h with
  | coget => simpa [State.costatWithinMask] using hs
  | cosetCostat src => simpa [State.costatWithinMask] using and_mask_and_not_mask (s.readReg src) (costatImplMask s.params)
  | cosetFplow => exact hs
  | cosetFpa => simpa [State.costatWithinMask] using hs

theorem exec_inv {i : Instr} {s t : State} (h : exec i s = .next t) (hs : s.Inv) : t.Inv := by
  obtain ⟨hpc, hmem, -⟩ := completionFrame i s t h
  exact {
    memory := hmem ▸ hs.memory
    pc := by rw [State.pcAligned, hpc, getLsbD_zero_add_two, hs.pc]
    costat := exec_costatWithinMask h hs.costat
    regZero := (exec_regs_zero h).trans hs.regZero }

/-- Settles O18: a step that goes on has run an instruction, and no instruction breaks a part of the invariant. -/
theorem stepKeepsInv : Obligations.StepKeepsInv := by
  intro s t hs h
  obtain ⟨-, i, -, -, hi⟩ := exec_of_step h
  exact exec_inv hi hs

/-- Settles O17: COSTAT starts masked by its storage bits, and memory empty. -/
theorem resetHasInv : Obligations.ResetHasInv := by
  intro p
  exact {
    memory := ⟨.nil, fun c hc => by cases hc⟩
    pc := by simp [State.pcAligned, State.resetWith]
    costat := and_mask_and_not_mask p.costatReset (costatImplMask p)
    regZero := rfl }

/-! ### The other accumulator -/

@[simp] theorem State.setFpa_ifAvailable (s : State) (j : Accumulator) (y : B64) (i : Instr)
    (r : Host.Outcome State Fault Refusal) : (s.setFpa j y).ifAvailable i r = s.ifAvailable i r := by
  cases j <;> rfl

@[simp] theorem mapNext_ifAvailable (f : State → State) (s : State) (i : Instr) (r : Host.Outcome State Fault Refusal) :
    mapNext f (s.ifAvailable i r) = s.ifAvailable i (mapNext f r) := by
  unfold State.ifAvailable
  split <;> rfl

@[simp] theorem mapNext_next (f : State → State) (t : State) : mapNext f (.next t) = .next (f t) := rfl

@[simp] theorem State.setFpa_complete (s : State) (j : Accumulator) (y : B64) :
    (s.setFpa j y).complete = s.complete.setFpa j y := by
  cases j <;> rfl

@[simp] theorem State.setFpa_long (s : State) (j : Accumulator) (y : B64) : (s.setFpa j y).long = s.long := by
  cases j <;> rfl

@[simp] theorem State.setFpa_roundMode (s : State) (j : Accumulator) (y : B64) :
    (s.setFpa j y).roundMode = s.roundMode := by
  cases j <;> rfl

@[simp] theorem State.setFpa_operand (s : State) (j : Accumulator) (y : B64) (src : RegNum) :
    (s.setFpa j y).operand src = s.operand src := by
  cases j <;> rfl

@[simp] theorem State.setFpa_operandInt (s : State) (j : Accumulator) (y : B64) (src : RegNum) :
    (s.setFpa j y).operandInt src = s.operandInt src := by
  cases j <;> rfl

@[simp] theorem State.setFpa_kept (s : State) (j : Accumulator) (y z : B64) : (s.setFpa j y).kept z = s.kept z := by
  cases j <;> rfl

@[simp] theorem State.setFpa_other_fpa (s : State) (k : Accumulator) (y : B64) : (s.setFpa k.other y).fpa k = s.fpa k :=
  s.setFpa_fpa_other k.other k y k.ne_other

@[simp] theorem State.setFpa_other_loadFpa (s : State) (k : Accumulator) (y z : B64) :
    (s.setFpa k.other y).loadFpa k z = (s.loadFpa k z).setFpa k.other y := by
  cases k <;> rfl

@[simp] theorem State.setFpa_other_storeResult (s : State) (k : Accumulator) (y z : B64) :
    (s.setFpa k.other y).storeResult k z = (s.storeResult k z).setFpa k.other y := by
  simp [State.storeResult_eq]

@[simp] theorem State.setFpa_writeReg (s : State) (j : Accumulator) (y : B64) (i : RegNum) (v : Word) :
    (s.setFpa j y).writeReg i v = (s.writeReg i v).setFpa j y := by
  unfold State.writeReg
  split
  · rfl
  · cases j <;> rfl

@[simp] theorem State.setFpa_deliverLong (s : State) (j : Accumulator) (y z : B64) (dst : RegNum) :
    (s.setFpa j y).deliverLong z dst = (s.deliverLong z dst).setFpa j y := by
  simp only [State.deliverLong, State.setFpa_writeReg]
  cases j <;> rfl

@[simp] theorem State.setFpa_deliverShort (s : State) (j : Accumulator) (y : B64) (w : B32) (dst : RegNum) :
    (s.setFpa j y).deliverShort w dst = (s.deliverShort w dst).setFpa j y := by
  simp only [State.deliverShort, State.setFpa_writeReg, State.setFpa_draws]
  cases j <;> rfl

@[simp] theorem State.setFpa_deliver (s : State) (j : Accumulator) (y z : B64) (dst : RegNum) :
    (s.setFpa j y).deliver z dst = (s.deliver z dst).setFpa j y := by
  cases hlong : s.long with
  | true => simp [State.deliver, hlong]
  | false => simp [State.deliver, hlong]

/-- An instruction whose effect commutes with a change of an accumulator commutes with it itself: neither the availability
check nor the end of the instruction reads an accumulator. -/
theorem exec_setFpa_of_effect {i : Instr} {j : Accumulator} {s : State} {y : B64} (effect : State → State)
    (hexec : ∀ s, exec i s = s.ifAvailable i (.next (effect s).complete))
    (heffect : effect (s.setFpa j y) = (effect s).setFpa j y) :
    exec i (s.setFpa j y) = mapNext (fun t => t.setFpa j y) (exec i s) := by
  simp [hexec, heffect]

/-- Settles O24: the effect of each instruction that names `k` is written with operations that commute with a change of
`k.other`. -/
theorem otherAccumulatorNeitherReadNorWritten : Obligations.OtherAccumulatorNeitherReadNorWritten := by
  intro i k s y h
  cases i with
  | cogetCostat | cogetFplow | cogetUndefined | cosetCostat | cosetFplow => cases h
  | cogetFpa dst k =>
    cases h
    exact exec_setFpa_of_effect (fun s => s.deliver (s.fpa k) dst) (fun _ => rfl) (by simp)
  | cogetFpneg dst k =>
    cases h
    exact exec_setFpa_of_effect (fun s => s.deliver (negate64 (s.fpa k)) dst) (fun _ => rfl) (by simp)
  | cogetFpabs dst k =>
    cases h
    refine exec_setFpa_of_effect (fun s =>
      if s.long then s.deliverLong (absolute64 (s.fpa k)) dst
      else s.deliverShort (absolute32 (narrow s.roundMode s.draws (absolute64 (s.fpa k)))) dst) (fun _ => rfl) ?_
    cases hlong : s.long <;> simp [hlong]
  | cosetFpa src k =>
    cases h
    exact exec_setFpa_of_effect (fun s => s.loadFpa k (s.operand src)) (fun _ => rfl) (by simp)
  | cosetFpint src k =>
    cases h
    exact exec_setFpa_of_effect (fun s => s.storeResult k (intToB64 s.roundMode (s.operandInt src)))
      (fun _ => rfl) (by simp)
  | cosetFpsqrt src k =>
    cases h
    exact exec_setFpa_of_effect (fun s => s.storeResult k (fsqrt s.roundMode s.draws (s.operand src)))
      (fun _ => rfl) (by simp)
  | cosetFpadd src k =>
    cases h
    exact exec_setFpa_of_effect (fun s => s.storeResult k (fadd s.roundMode s.draws (s.fpa k) (s.operand src)))
      (fun _ => rfl) (by simp)
  | cosetFpsub src k =>
    cases h
    exact exec_setFpa_of_effect (fun s => s.storeResult k (fsub s.roundMode s.draws (s.fpa k) (s.operand src)))
      (fun _ => rfl) (by simp)
  | cosetFpmul src k =>
    cases h
    exact exec_setFpa_of_effect (fun s => s.storeResult k (fmul s.roundMode s.draws (s.fpa k) (s.operand src)))
      (fun _ => rfl) (by simp)
  | cosetFpdiv src k =>
    cases h
    exact exec_setFpa_of_effect (fun s => s.storeResult k (fdiv s.roundMode s.draws (s.fpa k) (s.operand src)))
      (fun _ => rfl) (by simp)

/-! ### COSTAT -/

/-- Bits 12, 10:8 and 1 of COSTAT are storage whatever the parameters say (D14). -/
theorem costatImplMask_and_required (p : Config.Params) : costatImplMask p &&& 0x00001702#32 = 0x00001702#32 := by
  ext b hb
  simpa [costatImplMask] using Or.inr

theorem costat_of_cosetCostat {s t : State} {src : RegNum} (h : exec (.cosetCostat src) s = .next t) :
    t.costat = s.readReg src &&& costatImplMask s.params := by
  cases h
  simp

theorem readReg_of_cogetCostat {s t : State} {dst : RegNum} (h : exec (.cogetCostat dst) s = .next t) (hdst : dst ≠ 0#4) :
    t.readReg dst = s.costat := by
  cases h
  exact State.readReg_writeReg_same s dst s.costat hdst

/-- Settles O28: COSET leaves the storage bits of its source in COSTAT, and COGET delivers what COSTAT holds. -/
theorem costatReadsBack : Obligations.CostatReadsBack := by
  intro s src dst hdst
  obtain ⟨t, ht⟩ : ∃ t, exec (.cosetCostat src) s = .next t := ⟨_, rfl⟩
  obtain ⟨u, hu⟩ : ∃ u, exec (.cogetCostat dst) t = .next u := ⟨_, rfl⟩
  have hread : u.readReg dst = s.readReg src &&& costatImplMask s.params :=
    (readReg_of_cogetCostat hu hdst).trans (costat_of_cosetCostat ht)
  refine ⟨t, u, ht, hu, hread, ?_⟩
  rw [hread, BitVec.and_assoc, costatImplMask_and_required]

/-- Settles O16: `State.resetWith` stores exactly this value, and under the defaults bit 1 of it is clear. -/
theorem resetCostat : Obligations.ResetCostat :=
  ⟨fun _ => rfl, by decide, by decide⟩

/-! ### The CPU registers -/

/-- Settles O29: the laws of reading a register after a write. -/
theorem registerZeroAndTheOthers : Obligations.RegisterZeroAndTheOthers := by
  intro s i j v
  exact ⟨s.readReg_zero, s.writeReg_zero v, s.readReg_writeReg_same i v, s.readReg_writeReg_other i j v⟩

end Sys2Proof.Machine
end

section
/-! PROOFS. Family 20_memory.md: execution neither reads nor writes memory, and where the fetch, which does read it, stops. -/

namespace Sys2Proof.Machine

/-! ### Another memory in place of the machine's own -/

/-- `s` with `m` for its memory. -/
def State.withMem (s : State) (m : Memory) : State := { s with mem := m }

@[simp] theorem State.withMem_costat (s : State) (m : Memory) : (s.withMem m).costat = s.costat := rfl
@[simp] theorem State.withMem_draws (s : State) (m : Memory) : (s.withMem m).draws = s.draws := rfl
@[simp] theorem State.withMem_long (s : State) (m : Memory) : (s.withMem m).long = s.long := rfl
@[simp] theorem State.withMem_roundMode (s : State) (m : Memory) : (s.withMem m).roundMode = s.roundMode := rfl
@[simp] theorem State.withMem_readReg (s : State) (m : Memory) (i : RegNum) : (s.withMem m).readReg i = s.readReg i := rfl
@[simp] theorem State.withMem_fpa (s : State) (m : Memory) (k : Accumulator) : (s.withMem m).fpa k = s.fpa k := rfl
@[simp] theorem State.withMem_operand (s : State) (m : Memory) (src : RegNum) :
    (s.withMem m).operand src = s.operand src := rfl
@[simp] theorem State.withMem_operandInt (s : State) (m : Memory) (src : RegNum) :
    (s.withMem m).operandInt src = s.operandInt src := rfl
@[simp] theorem State.withMem_kept (s : State) (m : Memory) (y : B64) : (s.withMem m).kept y = s.kept y := rfl
@[simp] theorem State.withMem_ifAvailable (s : State) (m : Memory) (i : Instr) (r : Host.Outcome State Fault Refusal) :
    (s.withMem m).ifAvailable i r = s.ifAvailable i r := rfl
@[simp] theorem State.withMem_complete (s : State) (m : Memory) : (s.withMem m).complete = s.complete.withMem m := rfl

@[simp] theorem State.withMem_writeReg (s : State) (m : Memory) (i : RegNum) (v : Word) :
    (s.withMem m).writeReg i v = (s.writeReg i v).withMem m := by
  unfold State.writeReg
  split <;> rfl

@[simp] theorem State.withMem_writeCostat (s : State) (m : Memory) (v : Word) :
    (s.withMem m).writeCostat v = (s.writeCostat v).withMem m := by
  unfold State.writeCostat
  dsimp only
  rw [apply_ite (fun t => State.withMem t m)]
  rfl

@[simp] theorem State.withMem_loadFpa (s : State) (m : Memory) (k : Accumulator) (y : B64) :
    (s.withMem m).loadFpa k y = (s.loadFpa k y).withMem m := by
  cases k <;> rfl

@[simp] theorem State.withMem_storeResult (s : State) (m : Memory) (k : Accumulator) (y : B64) :
    (s.withMem m).storeResult k y = (s.storeResult k y).withMem m := by
  simp [State.storeResult_eq]

@[simp] theorem State.withMem_deliverLong (s : State) (m : Memory) (y : B64) (dst : RegNum) :
    (s.withMem m).deliverLong y dst = (s.deliverLong y dst).withMem m := by
  simp only [State.deliverLong, State.withMem_writeReg]
  rfl

@[simp] theorem State.withMem_deliverShort (s : State) (m : Memory) (w : B32) (dst : RegNum) :
    (s.withMem m).deliverShort w dst = (s.deliverShort w dst).withMem m := by
  simp only [State.deliverShort, State.withMem_writeReg]
  rfl

@[simp] theorem State.withMem_deliver (s : State) (m : Memory) (y : B64) (dst : RegNum) :
    (s.withMem m).deliver y dst = (s.deliver y dst).withMem m := by
  cases hlong : s.long with
  | true => simp [State.deliver, hlong]
  | false => simp [State.deliver, hlong]

/-! ### Execution -/

@[simp] theorem mapNext_fault (f : State → State) (e : Fault) : mapNext f (.fault e) = .fault e := rfl

/-- An instruction does the same with any memory in place of the machine's own, and keeps that memory: every operation it is
written with commutes with the replacement. -/
theorem exec_withMem (i : Instr) (s : State) (m : Memory) :
    exec i (s.withMem m) = mapNext (fun t => t.withMem m) (exec i s) := by
  cases i with
  | cogetCostat dst =>
    simp only [exec, execCogetCostat, State.withMem_writeReg]
    rfl
  | cogetFplow dst =>
    simp only [exec, execCogetFplow, State.withMem_long, State.withMem_writeReg, mapNext_ifAvailable]
    split <;> rfl
  | cogetFpa dst k => simp [exec, execCogetFpa]
  | cogetFpneg dst k => simp [exec, execCogetFpneg]
  | cogetFpabs dst k =>
    cases hlong : s.long with
    | true => simp [exec, execCogetFpabs, hlong]
    | false => simp [exec, execCogetFpabs, hlong]
  | cogetUndefined dst number => simp [exec, execCogetUndefined]
  | cosetCostat src => simp [exec, execCosetCostat]
  | cosetFplow src =>
    simp only [exec, execCosetFplow, mapNext_ifAvailable]
    rfl
  | cosetFpa src k => simp [exec, execCosetFpa]
  | cosetFpint src k => simp [exec, execCosetFpint]
  | cosetFpsqrt src k => simp [exec, execCosetFpsqrt]
  | cosetFpadd src k => simp [exec, execCosetFpadd]
  | cosetFpsub src k => simp [exec, execCosetFpsub]
  | cosetFpmul src k => simp [exec, execCosetFpmul]
  | cosetFpdiv src k => simp [exec, execCosetFpdiv]

/-- Settles O21: the statement's record update is `State.withMem`. -/
theorem memoryNeitherReadNorWritten : Obligations.MemoryNeitherReadNorWritten :=
  exec_withMem

/-! ### The fetch -/

/-- `MemRead` answers nothing as soon as one of its bytes has never been stored. -/
theorem Memory.readLE_eq_none_of_unwritten {m : Memory} {a : Word} {n j : Nat} (hj : j < n)
    (h : Memory.read m (a + BitVec.ofNat 32 j).toNat = none) : Memory.readLE m a n = none := by
  induction n generalizing a j with
  | zero => omega
  | succ n ih =>
    cases j with
    | zero =>
      have hlow : Memory.read m a.toNat = none := by simpa using h
      simp [Memory.readLE, hlow]
    | succ j =>
      have haddr : a + BitVec.ofNat 32 (j + 1) = a + 1#32 + BitVec.ofNat 32 j := by
        rw [BitVec.add_assoc, BitVec.ofNat_add, BitVec.add_comm (BitVec.ofNat 32 j)]
      have hrest : Memory.readLE m (a + 1#32) n = none := ih (by omega) (haddr ▸ h)
      simp [Memory.readLE, hrest]

theorem State.fetchWord_of_odd {s : State} (hpc : s.pc.getLsbD 0 = true) : s.fetchWord = .error (.misalignedFetch s.pc) := by
  simp only [State.fetchWord, hpc, if_true]

theorem State.fetchWord_of_unwritten {s : State} (hpc : s.pcAligned) (h : Memory.readLE s.mem s.pc 2 = none) :
    s.fetchWord = .error (.unwrittenFetch s.pc) := by
  rw [State.fetchWord, hpc, h]
  rfl

/-- A step whose fetch stops is that stop. -/
theorem step_of_fetchWord_error {s : State} {f : Fault} (h : s.fetchWord = .error f) : step s = .fault f := by
  rw [step, h]

/-- Settles O13: the instruction's bytes are those at `pc + 0` and `pc + 1`, and either one missing stops the fetch. -/
theorem fetchStops : Obligations.FetchStops := by
  intro s
  refine ⟨fun hodd => step_of_fetchWord_error (State.fetchWord_of_odd hodd), fun hpc hbytes => ?_⟩
  have hword : Memory.readLE s.mem s.pc 2 = none := by
    obtain hlow | hhigh := hbytes
    · exact Memory.readLE_eq_none_of_unwritten (j := 0) (by omega) (by simpa using hlow)
    · exact Memory.readLE_eq_none_of_unwritten (j := 1) (by omega) hhigh
  exact step_of_fetchWord_error (State.fetchWord_of_unwritten hpc hword)

end Sys2Proof.Machine
end

section
/-! PROOFS. Family 30_encoding.md: decoder and encoder are inverse to each other, what the masks of R44 and of the opcode table
select, the fields of a word as numbers, and the assembler's side. -/

namespace Sys2Proof.Machine

/-! ### The operation map is inverse to the fields of an instruction -/

/-- COGET of the numbers with `I[11] = 1` is the undefined row (R48). -/
theorem cogetOf_of_msb {n : CopNum} (r : RegNum) (h : n.msb = true) : cogetOf n r = .cogetUndefined r n := by
  have hop : 4 ≤ (n.extractLsb' 1 3).toNat := by
    revert n
    decide
  unfold cogetOf
  split
  case h_5 => rfl
  all_goals omega

/-- A number with its accumulator bit at the end has `op` above it. -/
@[simp] theorem number_op (op : BitVec 3) (k : Accumulator) : (op ++ k.bit : CopNum).extractLsb' 1 3 = op :=
  BitVec.extractLsb'_append_eq_left

/-- The last bit of a number names the accumulator it was made with. -/
@[simp] theorem number_accumulator (op : BitVec 3) (k : Accumulator) :
    Accumulator.ofBit (op ++ k.bit : CopNum)[0] = k := by
  rw [BitVec.getElem_append]
  cases k <;> rfl

/-- A well-formed instruction is what the operation map of its format gives for its number and register (R45). -/
theorem operationMap_of_fields (i : Instr) (hi : i.WellFormed) :
    (i.format = 0b0011#4 ∧ cogetOf i.number i.reg = i) ∨ (i.format = 0b0010#4 ∧ cosetOf i.number i.reg = i) := by
  cases i with
  | cogetUndefined dst number => exact .inl ⟨rfl, cogetOf_of_msb dst hi⟩
  | cogetCostat dst | cogetFplow dst | cogetFpa dst k | cogetFpneg dst k | cogetFpabs dst k =>
    exact .inl ⟨rfl, by simp [cogetOf, Instr.number, Instr.reg]⟩
  | cosetCostat src | cosetFplow src | cosetFpa src k | cosetFpint src k | cosetFpsqrt src k | cosetFpadd src k
  | cosetFpsub src k | cosetFpmul src k | cosetFpdiv src k =>
    exact .inr ⟨rfl, by simp [cosetOf, Instr.number, Instr.reg]⟩

theorem cogetOf_number_reg {i : Instr} (hi : i.WellFormed) (hf : i.format = 0b0011#4) : cogetOf i.number i.reg = i := by
  obtain ⟨-, h⟩ | ⟨h, -⟩ := operationMap_of_fields i hi
  · exact h
  · exact absurd (hf.symm.trans h) (by decide)

theorem cosetOf_number_reg {i : Instr} (hi : i.WellFormed) (hf : i.format = 0b0010#4) : cosetOf i.number i.reg = i := by
  obtain ⟨h, -⟩ | ⟨-, h⟩ := operationMap_of_fields i hi
  · exact absurd (hf.symm.trans h) (by decide)
  · exact h

/-- Settles O1: the word has the fields of the instruction's format, and the operation map gives the instruction back. -/
theorem decodeOfEncode : Obligations.DecodeOfEncode := by
  intro i hi
  obtain ⟨hf, h⟩ | ⟨hf, h⟩ := operationMap_of_fields i hi
  · rw [decodeWord_encode_coget i hf, h]
  · rw [decodeWord_encode_coset i hf, h]

/-! ### The word of an instruction that the operation map gives -/

theorem encode_cogetOf (n : CopNum) (r : RegNum) : encode (cogetOf n r) = 0b0011#4 ++ n ++ 0b0001#4 ++ r := by
  obtain ⟨hf, hn, hr, -⟩ := cogetOf_fields n r
  rw [encode, hf, hn, hr]

theorem encode_cosetOf (n : CopNum) (r : RegNum) : encode (cosetOf n r) = 0b0010#4 ++ n ++ 0b0001#4 ++ r := by
  obtain ⟨hf, hn, hr, -⟩ := cosetOf_fields n r
  rw [encode, hf, hn, hr]

/-- A word of four fields as a number. -/
theorem word_toNat (f n m r : BitVec 4) :
    (f ++ n ++ m ++ r : InstrWord).toNat = f.toNat * 2 ^ 12 + n.toNat * 2 ^ 8 + m.toNat * 2 ^ 4 + r.toNat := by
  have h := toNat_concat (f ++ n ++ m) r
  rw [toNat_concat (f ++ n) m, toNat_concat f n] at h
  refine Eq.trans h ?_
  ring

/-- Settles O3: the four fields at their places. -/
theorem instructionWordFormulas : Obligations.InstructionWordFormulas := by
  intro number reg
  constructor
  · rw [encode_cogetOf, word_toNat]
    simp only [BitVec.toNat_ofNat]
    omega
  · rw [encode_cosetOf, word_toNat]
    simp only [BitVec.toNat_ofNat]
    omega

/-- The number's two parts in a word: `op` in `I[11:9]`, `fr` in `I[8]` (R41, R42). -/
theorem word_op_fr (f m r : BitVec 4) (op : BitVec 3) (fr : BitVec 1) :
    (f ++ (op ++ fr : CopNum) ++ m ++ r : InstrWord).extractLsb' 9 3 = op ∧
      (f ++ (op ++ fr : CopNum) ++ m ++ r : InstrWord).extractLsb' 8 1 = fr := by
  obtain ⟨-, hn, -, -⟩ := word_fields f (op ++ fr) m r
  generalize (f ++ (op ++ fr : CopNum) ++ m ++ r : InstrWord) = w at *
  have hop : w.extractLsb' 9 3 = (w.extractLsb' 8 4).extractLsb' 1 3 := by
    ext b hb
    simp [show 1 + b < 4 by omega, ← Nat.add_assoc]
  have hfr : w.extractLsb' 8 1 = (w.extractLsb' 8 4).extractLsb' 0 1 := by
    ext b hb
    simp [show b < 4 by omega]
  rw [hop, hfr, hn]
  exact ⟨BitVec.extractLsb'_append_eq_left, BitVec.extractLsb'_append_eq_right⟩

/-- Settles O4: both words are made of the same fields but for the format. -/
theorem instructionFieldLayout : Obligations.InstructionFieldLayout := by
  intro op fr reg number coget coset
  have hcoget : coget = 0b0011#4 ++ number ++ 0b0001#4 ++ reg := encode_cogetOf number reg
  have hcoset : coset = 0b0010#4 ++ number ++ 0b0001#4 ++ reg := encode_cosetOf number reg
  have hfields (f : BitVec 4) (w : InstrWord) (hw : w = f ++ number ++ 0b0001#4 ++ reg) :
      w.extractLsb' 12 4 = f ∧
        w.extractLsb' 9 3 = op ∧ w.extractLsb' 8 1 = fr ∧ w.extractLsb' 4 4 = 0b0001#4 ∧ w.extractLsb' 0 4 = reg := by
    subst hw
    obtain ⟨hformat, -, hfixed, hreg⟩ := word_fields f number 0b0001#4 reg
    obtain ⟨hop, hfr⟩ := word_op_fr f 0b0001#4 reg op fr
    exact ⟨hformat, hop, hfr, hfixed, hreg⟩
  obtain ⟨hformat3, hrest3⟩ := hfields _ coget hcoget
  obtain ⟨hformat2, hrest2⟩ := hfields _ coset hcoset
  refine ⟨?_, hformat3, hformat2, ?_⟩
  · have hnumber : number.toNat = op.toNat * 2 ^ 1 + fr.toNat := toNat_concat op fr
    omega
  · simp only [List.forall_mem_cons]
    exact ⟨hrest3, hrest2, by simp⟩

/-! ### Recognition by `I & 0xF0F0` -/

/-- Masking a word masks each of its fields. -/
theorem word_and (f n m r f' n' m' r' : BitVec 4) :
    (f ++ n ++ m ++ r : InstrWord) &&& (f' ++ n' ++ m' ++ r' : InstrWord) =
      (f &&& f') ++ (n &&& n') ++ (m &&& m') ++ (r &&& r') := by
  simp only [BitVec.and_append]

/-- Two words made of four fields are equal just when their fields are. -/
theorem word_inj {f n m r f' n' m' r' : BitVec 4} :
    (f ++ n ++ m ++ r : InstrWord) = f' ++ n' ++ m' ++ r' ↔ f = f' ∧ n = n' ∧ m = m' ∧ r = r' := by
  constructor
  · intro h
    obtain ⟨hf, hn, hm, hr⟩ := word_fields f n m r
    obtain ⟨hf', hn', hm', hr'⟩ := word_fields f' n' m' r'
    rw [h] at hf hn hm hr
    exact ⟨hf.symm.trans hf', hn.symm.trans hn', hm.symm.trans hm', hr.symm.trans hr'⟩
  · rintro ⟨rfl, rfl, rfl, rfl⟩
    rfl

/-- `I & 0xF0F0` is the format and the fixed field `I[7:4]` (R44). -/
theorem and_F0F0_eq_iff (w : InstrWord) (f m : BitVec 4) :
    w &&& 0xF0F0#16 = f ++ 0#4 ++ m ++ 0#4 ↔ w.extractLsb' 12 4 = f ∧ w.extractLsb' 4 4 = m := by
  have hmask : 0xF0F0#16 = (BitVec.allOnes 4 ++ 0#4 ++ BitVec.allOnes 4 ++ 0#4 : InstrWord) := rfl
  conv_lhs => rw [← word_of_fields w, hmask, word_and, word_inj]
  simp only [BitVec.and_allOnes, BitVec.and_zero, true_and, and_true]

/-- COGET is recognised by `I & 0xF0F0 = 0x3010`, whatever the other eight bits (R44). -/
theorem decodeWord_of_cogetMask {w : InstrWord} (h : w &&& 0xF0F0#16 = 0x3010#16) :
    w = 0b0011#4 ++ w.extractLsb' 8 4 ++ 0b0001#4 ++ w.extractLsb' 0 4 ∧
      decodeWord w = .ok (cogetOf (w.extractLsb' 8 4) (w.extractLsb' 0 4)) := by
  obtain ⟨hf, hm⟩ := (and_F0F0_eq_iff w 0b0011#4 0b0001#4).mp h
  have hw := word_of_fields w
  rw [hf, hm] at hw
  exact ⟨hw.symm, by rw [← decodeWord_coget, hw]⟩

/-- COSET is recognised by `I & 0xF0F0 = 0x2010`, whatever the other eight bits (R44). -/
theorem decodeWord_of_cosetMask {w : InstrWord} (h : w &&& 0xF0F0#16 = 0x2010#16) :
    w = 0b0010#4 ++ w.extractLsb' 8 4 ++ 0b0001#4 ++ w.extractLsb' 0 4 ∧
      decodeWord w = .ok (cosetOf (w.extractLsb' 8 4) (w.extractLsb' 0 4)) := by
  obtain ⟨hf, hm⟩ := (and_F0F0_eq_iff w 0b0010#4 0b0001#4).mp h
  have hw := word_of_fields w
  rw [hf, hm] at hw
  exact ⟨hw.symm, by rw [← decodeWord_coset, hw]⟩

/-- Every other word is rejected (R44; D24). -/
theorem decodeWord_of_otherMask {w : InstrWord} (h3 : w &&& 0xF0F0#16 ≠ 0x3010#16) (h2 : w &&& 0xF0F0#16 ≠ 0x2010#16) :
    decodeWord w = .error (.notACoprocessorInstruction w) := by
  have hcoget : ¬ (w.extractLsb' 4 4 = 0b0001#4 ∧ w.extractLsb' 12 4 = 0b0011#4) := fun ⟨hm, hf⟩ =>
    h3 ((and_F0F0_eq_iff w 0b0011#4 0b0001#4).mpr ⟨hf, hm⟩)
  have hcoset : ¬ (w.extractLsb' 4 4 = 0b0001#4 ∧ w.extractLsb' 12 4 = 0b0010#4) := fun ⟨hm, hf⟩ =>
    h2 ((and_F0F0_eq_iff w 0b0010#4 0b0001#4).mpr ⟨hf, hm⟩)
  unfold decodeWord
  dsimp only
  rw [if_neg hcoget, if_neg hcoset]

/-- Settles O5: the three cases of recognition. -/
theorem recognitionByMask : Obligations.RecognitionByMask := by
  intro w
  refine ⟨fun h => ?_, fun h => ?_, decodeWord_of_otherMask⟩
  · exact ⟨_, (decodeWord_of_cogetMask h).2, (cogetOf_fields _ _).1⟩
  · exact ⟨_, (decodeWord_of_cosetMask h).2, (cosetOf_fields _ _).1⟩

/-- Settles O2: a word that decodes passed one of the two masks, so its four fields are those that the operation map keeps. -/
theorem encodeOfDecode : Obligations.EncodeOfDecode := by
  intro w i hdecode
  by_cases h3 : w &&& 0xF0F0#16 = 0x3010#16
  · obtain ⟨hw, hok⟩ := decodeWord_of_cogetMask h3
    obtain rfl := Except.ok.inj (hok.symm.trans hdecode)
    obtain ⟨-, -, -, hwf⟩ := cogetOf_fields (w.extractLsb' 8 4) (w.extractLsb' 0 4)
    exact ⟨(encode_cogetOf _ _).trans hw.symm, hwf⟩
  by_cases h2 : w &&& 0xF0F0#16 = 0x2010#16
  · obtain ⟨hw, hok⟩ := decodeWord_of_cosetMask h2
    obtain rfl := Except.ok.inj (hok.symm.trans hdecode)
    obtain ⟨-, -, -, hwf⟩ := cosetOf_fields (w.extractLsb' 8 4) (w.extractLsb' 0 4)
    exact ⟨(encode_cosetOf _ _).trans hw.symm, hwf⟩
  rw [decodeWord_of_otherMask h3 h2] at hdecode
  cases hdecode

/-! ### The rows of the opcode table -/

/-- The bits of the coprocessor register number that the mask of a row of spec/opcode_table.json selects: all of them where `op`
is 0, `op[2]` for the undefined numbers of COGET, and `op` everywhere else. -/
def rowNumberMask (format : BitVec 4) (number : CopNum) : BitVec 4 :=
  if number.extractLsb' 1 3 = 0#3 then 0b1111#4
  else if format = 0b0011#4 ∧ number.msb = true then 0b1000#4
  else 0b1110#4

/-- The row of an instruction that the operation map gives, field by field: COGET. -/
theorem cogetOf_row (n : CopNum) (r : RegNum) :
    (cogetOf n r).rowMask = BitVec.allOnes 4 ++ rowNumberMask 0b0011#4 n ++ BitVec.allOnes 4 ++ 0#4 ∧
      (cogetOf n r).rowMatch = 0b0011#4 ++ (n &&& rowNumberMask 0b0011#4 n) ++ 0b0001#4 ++ 0#4 := by
  rcases nibble_cases n with h | h | h | h | h | h | h | h | h | h | h | h | h | h | h | h <;> subst h <;>
    exact ⟨rfl, rfl⟩

/-- The row of an instruction that the operation map gives, field by field: COSET. -/
theorem cosetOf_row (n : CopNum) (r : RegNum) :
    (cosetOf n r).rowMask = BitVec.allOnes 4 ++ rowNumberMask 0b0010#4 n ++ BitVec.allOnes 4 ++ 0#4 ∧
      (cosetOf n r).rowMatch = 0b0010#4 ++ (n &&& rowNumberMask 0b0010#4 n) ++ 0b0001#4 ++ 0#4 := by
  rcases nibble_cases n with h | h | h | h | h | h | h | h | h | h | h | h | h | h | h | h <;> subst h <;>
    exact ⟨rfl, rfl⟩

/-- The row of a well-formed instruction, field by field. -/
theorem row_of_wellFormed (i : Instr) (hi : i.WellFormed) :
    i.rowMask = BitVec.allOnes 4 ++ rowNumberMask i.format i.number ++ BitVec.allOnes 4 ++ 0#4 ∧
      i.rowMatch = i.format ++ (i.number &&& rowNumberMask i.format i.number) ++ 0b0001#4 ++ 0#4 := by
  obtain ⟨hf, h⟩ | ⟨hf, h⟩ := operationMap_of_fields i hi
  · simpa only [h, hf] using cogetOf_row i.number i.reg
  · simpa only [h, hf] using cosetOf_row i.number i.reg

/-- A number with the masked bits of another one is masked like it: the rows of one format do not overlap. -/
theorem rowNumberMask_of_match {format : BitVec 4} {n m : CopNum}
    (h : m &&& rowNumberMask format n = n &&& rowNumberMask format n) :
    rowNumberMask format m = rowNumberMask format n := by
  by_cases hf : format = 0b0011#4
  · subst hf
    revert n m
    decide
  · simp only [rowNumberMask, hf, false_and, if_false] at *
    revert n m
    decide

/-- A word masked by a row's mask keeps its format, the masked bits of its number and the fixed field. -/
theorem encode_and_rowMask (i j : Instr) (hi : i.WellFormed) :
    encode j &&& i.rowMask = j.format ++ (j.number &&& rowNumberMask i.format i.number) ++ 0b0001#4 ++ 0#4 := by
  obtain ⟨hmask, -⟩ := row_of_wellFormed i hi
  rw [hmask, encode, word_and]
  simp only [BitVec.and_allOnes, BitVec.and_zero]

/-- Settles O7: an instruction that matches the row of `i` has the format and the masked number bits of `i`, and these two give
the row. -/
theorem opcodeTableRowsApart : Obligations.OpcodeTableRowsApart := by
  intro i j hi hj
  obtain ⟨hmaskI, hmatchI⟩ := row_of_wellFormed i hi
  obtain ⟨hmaskJ, hmatchJ⟩ := row_of_wellFormed j hj
  refine ⟨(encode_and_rowMask i i hi).trans hmatchI.symm, fun h => ?_⟩
  rw [encode_and_rowMask i j hi, hmatchI, word_inj] at h
  obtain ⟨hformat, hnumber, -, -⟩ := h
  have hsame : rowNumberMask i.format j.number = rowNumberMask i.format i.number := rowNumberMask_of_match hnumber
  rw [hmaskJ, hmaskI, hmatchJ, hmatchI, hformat, hsame, hnumber]
  exact ⟨rfl, rfl⟩

/-! ### Tables written out -/

/-- Settles O6: each of the sixteen rows, by evaluation of the map. -/
theorem operationMap : Obligations.OperationMap := by
  intro r
  and_intros <;> rfl

/-- Decoding the bytes of a well-formed instruction, low byte first, answers it and leaves the bytes after it (R40; D15). -/
theorem decode_encodeBytes (i : Instr) (rest : List Byte) (hi : i.WellFormed) :
    decode (encodeBytes i ++ rest) = .ok (i, rest) := by
  have hword : (encode i).extractLsb' 8 8 ++ (encode i).extractLsb' 0 8 = encode i :=
    BitVec.extractLsb'_append_extractLsb' (w := 8) (len := 8)
  simp only [encodeBytes, List.cons_append, List.nil_append, decode, hword, decodeOfEncode i hi]

/-- Settles O8: the bytes are those of the instructions, and 0x3000 passes neither mask. -/
theorem writtenWordsDecode : Obligations.WrittenWordsDecode :=
  ⟨decode_encodeBytes (.cogetCostat 1) [] rfl, decode_encodeBytes (.cogetFplow 3) [] rfl,
    decode_encodeBytes (.cogetFpa 4 .fpa1) [] rfl, decode_encodeBytes (.cogetFpneg 1 .fpa0) [] rfl,
    decode_encodeBytes (.cogetFpabs 3 .fpa1) [] rfl, decode_encodeBytes (.cogetUndefined 5 10) [] rfl,
    decode_encodeBytes (.cosetCostat 1) [] rfl, decode_encodeBytes (.cosetFplow 3) [] rfl,
    decode_encodeBytes (.cosetFpa 4 .fpa1) [] rfl, decode_encodeBytes (.cosetFpint 4 .fpa1) [] rfl,
    decode_encodeBytes (.cosetFpsqrt 3 .fpa1) [] rfl, decode_encodeBytes (.cosetFpadd 4 .fpa1) [] rfl,
    decode_encodeBytes (.cosetFpsub 3 .fpa1) [] rfl, decode_encodeBytes (.cosetFpmul 4 .fpa1) [] rfl,
    decode_encodeBytes (.cosetFpdiv 3 .fpa0) [] rfl, rfl⟩

/-! ### The assembler -/

/-- The expression of COGET names an instruction by its coprocessor register number (R50). -/
theorem assembleCoget_number {i : Instr} {src : Nat} (hi : i.WellFormed) (hf : i.format = 0b0011#4)
    (hsrc : src = i.number.toNat) : assembleCoget i.reg src = some i := by
  rw [hsrc, assembleCoget, if_pos i.number.isLt, BitVec.ofNat_toNat, BitVec.setWidth_eq, cogetOf_number_reg hi hf]

/-- The expression of COSET names an instruction by its coprocessor register number (R51). -/
theorem assembleCoset_number {i : Instr} {dst : Nat} (hi : i.WellFormed) (hf : i.format = 0b0010#4)
    (hdst : dst = i.number.toNat) : assembleCoset i.reg dst = some i := by
  rw [hdst, assembleCoset, if_pos i.number.isLt, BitVec.ofNat_toNat, BitVec.setWidth_eq, cosetOf_number_reg hi hf]

/-- Settles O9: each sum is the number of its instruction. -/
theorem assemblerSums : Obligations.AssemblerSums := by
  intro r k
  refine ⟨assembleCoget_number (i := .cogetFpa r k) rfl rfl ?_,
    assembleCoget_number (i := .cogetFpneg r k) rfl rfl ?_,
    assembleCoget_number (i := .cogetFpabs r k) rfl rfl ?_,
    assembleCoset_number (i := .cosetFpa r k) rfl rfl ?_,
    assembleCoset_number (i := .cosetFpint r k) rfl rfl ?_,
    assembleCoset_number (i := .cosetFpsqrt r k) rfl rfl ?_,
    assembleCoset_number (i := .cosetFpadd r k) rfl rfl ?_,
    assembleCoset_number (i := .cosetFpsub r k) rfl rfl ?_,
    assembleCoset_number (i := .cosetFpmul r k) rfl rfl ?_,
    assembleCoset_number (i := .cosetFpdiv r k) rfl rfl ?_,
    assembleCoget_number (i := .cogetFpa r .fpa0) rfl rfl ?_⟩
  all_goals cases k <;> rfl

/-- Settles O10: each text is parsed first, then the literal is rounded. -/
theorem decimalLiteralWords : Obligations.DecimalLiteralWords := by
  have h1 : parseLiteral ['3', '.', '1', '4', '1', '5'] = some ⟨false, 31415, 4, 0⟩ := by decide
  have h2 : parseLiteral ['3', 'E', '2'] = some ⟨false, 3, 0, 2⟩ := by decide
  have h3 : parseLiteral ['+', '1', '.', '0', 'e', '-', '2'] = some ⟨false, 10, 1, -2⟩ := by decide
  have h4 : parseLiteral ['-', '1', '2', '3', '.', '4', '5', 'E', '+', '7'] = some ⟨true, 12345, 2, 7⟩ := by decide
  refine ⟨?_, ?_, ?_, ?_⟩
  · rw [fDirective, h1]
    decide
  · rw [fDirective, h2]
    decide
  · rw [fDirective, h3]
    decide
  · rw [lifValue, h4]
    decide

end Sys2Proof.Machine
end

section
/-! PROOFS. Family 40_numerics.md: the codes of a delivered number, the special values and operands, and correct rounding with its
overflow for conversions, arithmetic, the square root and integers. -/

namespace Sys2Proof.Machine

open Config (RoundMode)

/-! ### Classes, fields and values of the special patterns and of a negated number -/

@[simp] theorem sign64_infinity64 (s : Bool) : sign64 (infinity64 s) = s := (fields64 s _ _).1
@[simp] theorem exponent64_infinity64 (s : Bool) : exponent64 (infinity64 s) = 0x7FF#11 := (fields64 s _ _).2.1
@[simp] theorem mantissa64_infinity64 (s : Bool) : mantissa64 (infinity64 s) = 0#52 := (fields64 s _ _).2.2
@[simp] theorem isNaN64_infinity64 (s : Bool) : isNaN64 (infinity64 s) = false := by simp [isNaN64]
@[simp] theorem isInf64_infinity64 (s : Bool) : isInf64 (infinity64 s) = true := by simp [isInf64]
@[simp] theorem isZero64_infinity64 (s : Bool) : isZero64 (infinity64 s) = false := by simp [isZero64]

@[simp] theorem sign64_zero64 (s : Bool) : sign64 (zero64 s) = s := (fields64 s _ _).1
@[simp] theorem exponent64_zero64 (s : Bool) : exponent64 (zero64 s) = 0#11 := (fields64 s _ _).2.1
@[simp] theorem mantissa64_zero64 (s : Bool) : mantissa64 (zero64 s) = 0#52 := (fields64 s _ _).2.2
@[simp] theorem isNaN64_zero64 (s : Bool) : isNaN64 (zero64 s) = false := by simp [isNaN64]
@[simp] theorem isInf64_zero64 (s : Bool) : isInf64 (zero64 s) = false := by simp [isInf64]
@[simp] theorem isZero64_zero64 (s : Bool) : isZero64 (zero64 s) = true := by simp [isZero64]
@[simp] theorem isFinite64_zero64 (s : Bool) : isFinite64 (zero64 s) = true := by simp [isFinite64]

@[simp] theorem sign32_infinity32 (s : Bool) : sign32 (infinity32 s) = s := (fields32 s _ _).1
@[simp] theorem exponent32_infinity32 (s : Bool) : exponent32 (infinity32 s) = 0xFF#8 := (fields32 s _ _).2.1
@[simp] theorem mantissa32_infinity32 (s : Bool) : mantissa32 (infinity32 s) = 0#23 := (fields32 s _ _).2.2

theorem not_isNaN64_of_finite {y : B64} (h : isFinite64 y = true) : isNaN64 y = false := by
  simp_all [isFinite64, isNaN64]

theorem not_isInf64_of_finite {y : B64} (h : isFinite64 y = true) : isInf64 y = false := by
  simp_all [isFinite64, isInf64]

@[simp] theorem sign64_negate64 (y : B64) : sign64 (negate64 y) = !sign64 y := by
  simp [sign64, negate64, show (0x8000000000000000#64).msb = true from rfl]

@[simp] theorem exponent64_negate64 (y : B64) : exponent64 (negate64 y) = exponent64 y := by
  simp [exponent64, negate64, BitVec.extractLsb'_xor]

@[simp] theorem mantissa64_negate64 (y : B64) : mantissa64 (negate64 y) = mantissa64 y := by
  simp [mantissa64, negate64, BitVec.extractLsb'_xor]

@[simp] theorem isNaN64_negate64 (y : B64) : isNaN64 (negate64 y) = isNaN64 y := by simp [isNaN64]
@[simp] theorem isInf64_negate64 (y : B64) : isInf64 (negate64 y) = isInf64 y := by simp [isInf64]
@[simp] theorem isZero64_negate64 (y : B64) : isZero64 (negate64 y) = isZero64 y := by simp [isZero64]
@[simp] theorem isFinite64_negate64 (y : B64) : isFinite64 (negate64 y) = isFinite64 y := by simp [isFinite64]

@[simp] theorem magnitude64_negate64 (y : B64) : magnitude64 (negate64 y) = magnitude64 y := by
  simp [magnitude64, significand64, scale64]

@[simp] theorem value64_negate64 (y : B64) : value64 (negate64 y) = -value64 y := by
  cases h : sign64 y <;> simp [value64, h]

theorem negate64_zero64 (s : Bool) : negate64 (zero64 s) = zero64 (!s) :=
  eq_of_fields64 _ _ (by simp) (by simp) (by simp)

theorem magnitude64_of_exponent_zero {y : B64} (h : exponent64 y = 0#11) : magnitude64 y = (mantissa64 y).toNat := by
  simp [magnitude64, significand64, scale64, h]

/-- A number is zero when its magnitude is. -/
theorem magnitude64_eq_zero_iff (y : B64) : magnitude64 y = 0 ↔ isZero64 y = true := by
  have hm : (mantissa64 y).toNat = 0 ↔ mantissa64 y = 0#52 := BitVec.toNat_inj (y := 0#52)
  by_cases he : exponent64 y = 0#11 <;> simp [magnitude64, significand64, isZero64, he, hm]

theorem magnitude64_pos {y : B64} (h : isZero64 y = false) : 0 < magnitude64 y :=
  Nat.pos_of_ne_zero (by simp [magnitude64_eq_zero_iff, h])

theorem value64_eq_zero_iff (y : B64) : value64 y = 0 ↔ isZero64 y = true := by
  rw [← magnitude64_eq_zero_iff]
  cases h : sign64 y <;> simp [value64, h]

/-- There is one zero of each sign. -/
theorem eq_zero64_of_isZero64 {y : B64} (h : isZero64 y = true) : y = zero64 (sign64 y) := by
  obtain ⟨he, hm⟩ : exponent64 y = 0#11 ∧ mantissa64 y = 0#52 := by simpa [isZero64] using h
  exact eq_of_fields64 _ _ (by simp) (by simp [he]) (by simp [hm])

@[simp] theorem magnitude64_zero64 (s : Bool) : magnitude64 (zero64 s) = 0 := (magnitude64_eq_zero_iff _).mpr (by simp)
@[simp] theorem value64_zero64 (s : Bool) : value64 (zero64 s) = 0 := (value64_eq_zero_iff _).mpr (by simp)

/-- A number without a minus sign is its magnitude. -/
theorem value64_of_sign_false {y : B64} (h : sign64 y = false) : (value64 y : ℝ) = magnitude64 y := by
  rw [value64_eq_signed, h, signed, if_neg Bool.false_ne_true]

/-! ### The condition codes, and an accumulator loaded and read in long mode -/

/-- The exponent field of a long number lies in its high word, from bit 20 on. -/
theorem exponent_of_high_word (y : B64) : (y.extractLsb' 32 32).extractLsb' 20 11 = exponent64 y := by
  ext i hi
  simp only [exponent64, BitVec.getElem_extractLsb', BitVec.getLsbD_extractLsb', show 20 + i < 32 by omega, decide_true,
    Bool.true_and]
  congr 1
  omega

/-- A long number is the pattern of all zeros when both its words are. -/
theorem eq_zero_iff_words (y : B64) : y = 0#64 ↔ y.extractLsb' 32 32 = 0#32 ∧ y.extractLsb' 0 32 = 0#32 := by
  constructor
  · rintro rfl
    exact ⟨rfl, rfl⟩
  · rintro ⟨hhi, hlo⟩
    have h : y.extractLsb' 32 32 ++ y.extractLsb' 0 32 = y := BitVec.extractLsb'_append_extractLsb'
    rw [← h, hhi, hlo]
    rfl

/-- Settles O47: the two words hold the sign, the exponent field and all the bits of the number. -/
theorem codesReportDeliveredNumber : Obligations.CodesReportDeliveredNumber := by
  constructor
  · intro y
    have hn : (y.extractLsb' 32 32).getLsbD 31 = sign64 y := by
      simp [sign64, BitVec.msb_eq_getLsbD_last]
    have hz : (y.extractLsb' 32 32 == 0#32 && y.extractLsb' 0 32 == 0#32) = decide (y = 0#64) := by
      rw [Bool.eq_iff_iff, decide_eq_true_eq, eq_zero_iff_words, Bool.and_eq_true, beq_iff_eq, beq_iff_eq]
    have hc : ((y.extractLsb' 32 32).extractLsb' 20 11 == 0x7FF#11) = !isFinite64 y := by
      rw [exponent_of_high_word]
      simp [isFinite64, bne]
    rw [fpCcLong, hn, hz, hc]
  · intro w
    have hn : w.getLsbD 31 = sign32 w := (BitVec.msb_eq_getLsbD_last w).symm
    have hc : (w.extractLsb' 23 8 == 0xFF#8) = !isFinite32 w := by
      simp [isFinite32, exponent32, bne]
    rw [fpCcShort, hn, hc]
    rfl

/-- A number is above zero when it has neither a minus sign nor the value zero. -/
theorem value64_pos_iff (y : B64) : 0 < value64 y ↔ sign64 y = false ∧ isZero64 y = false := by
  rw [← Bool.not_eq_true (isZero64 y), ← magnitude64_eq_zero_iff, value64]
  cases sign64 y with
  | false => simp [Nat.pos_iff_ne_zero]
  | true => simp

theorem CondCodes.lessOrEqual_eq_not_greater (cc : CondCodes) : cc.lessOrEqual = !cc.greater := by
  simp [CondCodes.lessOrEqual, CondCodes.greater, bne]

/-- The codes of a long number take BGT when its value is above zero. A minus zero has N = 1 and Z = 0, and does not take it. -/
theorem greater_fpCcLong (y : B64) :
    (fpCcLong (y.extractLsb' 32 32) (y.extractLsb' 0 32)).greater = decide (0 < value64 y) := by
  rw [codesReportDeliveredNumber.1, Bool.eq_iff_iff, decide_eq_true_eq, value64_pos_iff]
  have hzero : sign64 y = false → (isZero64 y = true ↔ y = 0#64) := fun hs =>
    ⟨fun h => by rw [eq_zero64_of_isZero64 h, hs]; rfl, fun h => by rw [h]; rfl⟩
  simp only [CondCodes.greater, Bool.and_eq_true, Bool.not_eq_true', decide_eq_false_iff_not, beq_iff_eq]
  constructor
  · rintro ⟨hne, hs⟩
    exact ⟨hs, by rwa [← Bool.not_eq_true, hzero hs]⟩
  · rintro ⟨hs, hz⟩
    exact ⟨by rwa [← hzero hs, Bool.not_eq_true], hs⟩

/-- COGET of an accumulator in long mode. -/
theorem exec_cogetFpa_long {s : State} (dst : RegNum) (k : Accumulator) (ha : s.available = true) (hl : s.long = true) :
    exec (.cogetFpa dst k) s = .next (s.deliverLong (s.fpa k) dst).complete := by
  rw [← State.deliver_long s _ dst hl]
  exact State.ifAvailable_of_available s _ _ ha

/-- COSET of an accumulator. -/
theorem exec_cosetFpa {s : State} (src : RegNum) (k : Accumulator) (ha : s.available = true) :
    exec (.cosetFpa src k) s = .next (s.loadFpa k (s.operand src)).complete :=
  State.ifAvailable_of_available s _ _ ha

/-- Settles O48: the codes are those of the accumulator's number, and BLE is the negation of BGT. -/
theorem branchConditionsReportRelationToZero : Obligations.BranchConditionsReportRelationToZero := by
  intro s dst k ha hl _
  refine ⟨_, exec_cogetFpa_long dst k ha hl, ?_⟩
  rw [CondCodes.lessOrEqual_eq_not_greater, State.complete_cc, State.deliverLong_cc, greater_fpCcLong]
  simp [← decide_not]

/-- The destination register holds the high word of a delivered long number. -/
theorem State.deliverLong_readReg (s : State) (y : B64) {dst : RegNum} (hdst : dst ≠ 0#4) :
    (s.deliverLong y dst).readReg dst = y.extractLsb' 32 32 := by
  rw [State.readReg_congr _ _ dst (s.deliverLong_regs y dst), State.readReg_writeReg_same _ _ _ hdst]

/-- Settles O43: the operand is the word above FPLOW, and the delivery takes the two apart again. -/
theorem longLoadThenReadIsExact : Obligations.LongLoadThenReadIsExact := by
  intro s src dst k ha hl hdst
  have ha' : (s.loadFpa k (s.operand src)).complete.available = true := by
    simpa [State.available, State.enabled, State.selected] using ha
  have hl' : (s.loadFpa k (s.operand src)).complete.long = true := by
    simpa [State.long] using hl
  refine ⟨_, _, exec_cosetFpa src k ha, exec_cogetFpa_long dst k ha' hl', ?_, ?_⟩
  · rw [State.complete_readReg, State.deliverLong_readReg _ _ hdst, State.complete_fpa, State.loadFpa_fpa_same,
      State.operand_long s src hl]
    exact BitVec.extractLsb'_append_eq_left
  · rw [State.complete_fplow, State.deliverLong_fplow, State.complete_fpa, State.loadFpa_fpa_same,
      State.operand_long s src hl]
    exact BitVec.extractLsb'_append_eq_right

/-! ### The formats' special values through `widen` and `narrow` -/

theorem widen_of_isNaN32 {x : B32} (t : Nat) (h : isNaN32 x = true) : widen t x = nanResult64 t (.widen x) := by
  rw [isNaN32, Bool.and_eq_true, beq_iff_eq, bne_iff_ne] at h
  exact if_pos h

theorem narrow_of_isNaN64 {y : B64} (m : RoundMode) (t : Nat) (h : isNaN64 y = true) :
    narrow m t y = nanResult32 t (.narrow y) :=
  if_pos h

theorem narrow_of_finite {y : B64} (m : RoundMode) (t : Nat) (h : isFinite64 y = true) :
    narrow m t y = round32 m (sign64 y) (magnitude64 y) (2 ^ 925) := by
  rw [narrow, if_neg (by simp [not_isNaN64_of_finite h]), if_neg (by simp [not_isInf64_of_finite h])]

/-- Settles O50: each value falls into its own branch of `widen`, `narrow` and `shortRounded`. -/
theorem conversionOfSpecialValues : Obligations.ConversionOfSpecialValues := by
  intro m t x y s
  refine ⟨?_, ?_, fun h => ?_, fun h => ⟨?_, ?_⟩, fun h => ?_⟩
  · simp [widen]
  · simp [narrow]
  · rw [widen_of_isNaN32 t h, isNaN64_nanResult64]
  · rw [narrow_of_isNaN64 m t h, isNaN32_nanResult32]
  · rw [shortRounded, if_pos h, isNaN64_nanResult64]
  · rw [shortRounded, if_neg (by simp [h])]

/-! ### `widen` -/

/-- Scaling by two powers of two depends on the sum of their exponents. -/
theorem mul_two_pow_congr (n : Nat) {a b c d : Nat} (h : a + b = c + d) : n * 2 ^ a * 2 ^ b = n * 2 ^ c * 2 ^ d := by
  rw [Nat.mul_assoc, ← pow_add, h, pow_add, Nat.mul_assoc]

/-- The normal number whose exponent field is `e`. -/
theorem normal_of_fields (s : Bool) {e : Nat} (m : BitVec 52) (h0 : 0 < e) (h1 : e < 2047) :
    isFinite64 (BitVec.ofBool s ++ BitVec.ofNat 11 e ++ m) = true ∧ sign64 (BitVec.ofBool s ++ BitVec.ofNat 11 e ++ m) = s ∧
      magnitude64 (BitVec.ofBool s ++ BitVec.ofNat 11 e ++ m) = (2 ^ 52 + m.toNat) * 2 ^ (e - 1) := by
  obtain ⟨hs, he, hm⟩ := fields64 s (BitVec.ofNat 11 e) m
  have hE : (BitVec.ofNat 11 e).toNat = e := by rw [BitVec.toNat_ofNat, Nat.mod_eq_of_lt (by omega)]
  refine ⟨?_, hs, ?_⟩
  · rw [isFinite64, he, bne_iff_ne, ne_eq, ← BitVec.toNat_inj, hE]
    exact h1.ne
  · rw [magnitude64, significand64, scale64, he, hm, if_neg, hE]
    rw [← BitVec.toNat_inj, hE]
    exact h0.ne'

/-- An un-normalized short number becomes normal: its highest set bit `k` becomes the hidden bit. -/
theorem widen_unnormalized {x : B32} (t : Nat) (he : exponent32 x = 0#8) (hm : mantissa32 x ≠ 0#23) :
    isFinite64 (widen t x) = true ∧ sign64 (widen t x) = sign32 x ∧
      magnitude64 (widen t x) = (mantissa32 x).toNat * 2 ^ 925 := by
  have hm0 : (mantissa32 x).toNat ≠ 0 := fun e => hm (BitVec.eq_of_toNat_eq e)
  have hw : widen t x = BitVec.ofBool (sign32 x) ++ BitVec.ofNat 11 (Nat.log2 (mantissa32 x).toNat + 874) ++
      BitVec.ofNat 52 ((mantissa32 x).toNat <<< (52 - Nat.log2 (mantissa32 x).toNat)) := by
    simp [widen, he, hm]
  have hlow := Nat.log2_self_le hm0
  have hhigh : (mantissa32 x).toNat < 2 ^ (Nat.log2 (mantissa32 x).toNat + 1) := Nat.lt_log2_self
  have hk : Nat.log2 (mantissa32 x).toNat < 23 := (Nat.log2_lt hm0).mpr (mantissa32 x).isLt
  generalize Nat.log2 (mantissa32 x).toNat = k at *
  generalize (mantissa32 x).toNat = n at *
  -- the shifted mantissa is the hidden bit and what the field keeps of it
  have hM : 2 ^ 52 + (BitVec.ofNat 52 (n <<< (52 - k))).toNat = n * 2 ^ (52 - k) := by
    have hp : 2 ^ 52 = 2 ^ k * 2 ^ (52 - k) := by rw [← pow_add, show k + (52 - k) = 52 by omega]
    have h1 : 2 ^ 52 ≤ n * 2 ^ (52 - k) := hp ▸ Nat.mul_le_mul_right _ hlow
    have h2 : n * 2 ^ (52 - k) < 2 * 2 ^ 52 := by
      rw [hp, ← Nat.mul_assoc, Nat.mul_comm 2, ← pow_succ]
      exact Nat.mul_lt_mul_of_pos_right hhigh (pow_pos two_pos _)
    rw [BitVec.toNat_ofNat, Nat.shiftLeft_eq]
    omega
  obtain ⟨h1, h2, h3⟩ := normal_of_fields (sign32 x) (BitVec.ofNat 52 (n <<< (52 - k)))
    (show 0 < k + 874 by omega) (by omega)
  rw [hw]
  refine ⟨h1, h2, ?_⟩
  have hexp : 52 - k + (k + 874 - 1) = 925 := by omega
  rw [h3, hM, Nat.mul_assoc, ← hexp, pow_add]

/-- A normal short number keeps its mantissa bits, and its exponent field moves by the difference of the biases. -/
theorem widen_normal {x : B32} (t : Nat) (he : exponent32 x ≠ 0#8) (hfin : exponent32 x ≠ 0xFF#8) :
    isFinite64 (widen t x) = true ∧ sign64 (widen t x) = sign32 x ∧
      magnitude64 (widen t x) = (2 ^ 23 + (mantissa32 x).toNat) * 2 ^ ((exponent32 x).toNat - 1) * 2 ^ 925 := by
  have hw : widen t x = BitVec.ofBool (sign32 x) ++ BitVec.ofNat 11 ((exponent32 x).toNat + 896) ++
      (mantissa32 x ++ 0#29) := by
    simp [widen, he, hfin]
  have he0 : (exponent32 x).toNat ≠ 0 := fun e => he (BitVec.eq_of_toNat_eq e)
  have hlt := (exponent32 x).isLt
  have hM : (mantissa32 x ++ 0#29 : BitVec 52).toNat = (mantissa32 x).toNat * 2 ^ 29 :=
    (toNat_concat (mantissa32 x) 0#29).trans (by simp)
  obtain ⟨h1, h2, h3⟩ := normal_of_fields (sign32 x) (mantissa32 x ++ 0#29 : BitVec 52)
    (show 0 < (exponent32 x).toNat + 896 by omega) (by omega)
  rw [hw]
  refine ⟨h1, h2, ?_⟩
  obtain ⟨e, he1⟩ : ∃ e, (exponent32 x).toNat = e + 1 := ⟨_, (Nat.succ_pred_eq_of_ne_zero he0).symm⟩
  calc magnitude64 _ = (2 ^ 23 + (mantissa32 x).toNat) * 2 ^ 29 * 2 ^ (e + 1 + 896 - 1) := by
        rw [h3, hM, he1, Nat.add_mul (2 ^ 23), ← pow_add 2 23]
    _ = (2 ^ 23 + (mantissa32 x).toNat) * 2 ^ (e + 1 - 1) * 2 ^ 925 :=
        mul_two_pow_congr _ (by omega)
    _ = _ := by rw [he1]

/-- Widening a finite number, said once of its three forms: zero, un-normalized and normal. -/
theorem widen_of_finite {x : B32} (t : Nat) (h : isFinite32 x = true) :
    isFinite64 (widen t x) = true ∧ sign64 (widen t x) = sign32 x ∧ magnitude64 (widen t x) = magnitude32 x * 2 ^ 925 := by
  have hfin : exponent32 x ≠ 0xFF#8 := by simpa [isFinite32] using h
  by_cases he : exponent32 x = 0#8
  · by_cases hm : mantissa32 x = 0#23
    · have hw : widen t x = zero64 (sign32 x) := by simp [widen, he, hm]
      simp only [hw, isFinite64_zero64, sign64_zero64, magnitude64_zero64, magnitude32, he, hm, if_true, true_and,
        BitVec.toNat_ofNat, Nat.zero_mod, Nat.zero_mul]
    · rw [magnitude32, if_pos he]
      exact widen_unnormalized t he hm
  · rw [magnitude32, if_neg he]
    exact widen_normal t he hfin

/-- Settles O49: the sign is kept and the magnitude scaled. -/
theorem widenIsExact : Obligations.WidenIsExact := by
  intro t x hx
  obtain ⟨hfin, hs, hmag⟩ := widen_of_finite t hx
  refine ⟨hfin, hs, ?_⟩
  rw [value64, value32, hs, hmag, Nat.cast_mul, Nat.cast_pow]
  split
  · exact (Int.neg_mul _ _).symm
  · rfl

/-! ### Signs -/

theorem signed_mul (p q : Bool) (x y : ℝ) : signed p x * signed q y = signed (p ^^ q) (x * y) := by
  cases p <;> cases q <;> simp [signed]

theorem signed_div (p q : Bool) (x y : ℝ) : signed p x / signed q y = signed (p ^^ q) (x / y) := by
  cases p <;> cases q <;> simp [signed, neg_div, div_neg]

theorem signed_mul_right (p : Bool) (x c : ℝ) : signed p x * c = signed p (x * c) := by
  cases p <;> simp [signed]

theorem signed_div_right (p : Bool) (x c : ℝ) : signed p x / c = signed p (x / c) := by
  cases p <;> simp [signed, neg_div]

/-- An integer is its magnitude with the sign of its comparison to zero; the sign given to zero does not matter. -/
theorem signed_natAbs {s : Bool} {n : Int} (hs : n ≠ 0 → s = decide (n < 0)) : signed s (n.natAbs : ℝ) = n := by
  rw [Nat.cast_natAbs, Int.cast_abs]
  rcases lt_trichotomy n 0 with h | h | h
  · rw [hs h.ne, decide_eq_true h, signed, if_pos rfl, abs_of_neg (by exact_mod_cast h), neg_neg]
  · simp [h, signed]
  · rw [hs h.ne', decide_eq_false (by omega), signed, if_neg (by simp), abs_of_pos (by exact_mod_cast h)]

/-! ### Rounding to zero, to a finite number and to the infinity -/

/-- Nothing is rounded to nothing. -/
theorem roundMagnitude_zero (m : RoundMode) (s : Bool) (mBits eBits d : Nat) (hd : 0 < d) :
    roundMagnitude m s mBits eBits 0 d = 0 := by
  have hr : roundWhole m s 0 d = 0 := Nat.le_zero.mp ((roundWhole_between m s 0 d 0 hd).2 (Nat.zero_le _))
  simp [roundMagnitude, hr, Nat.log2_zero]

theorem round64_zero (m : RoundMode) (s : Bool) {d : Nat} (hd : 0 < d) : round64 m s 0 d = zero64 s := by
  obtain ⟨hs, -, hmag⟩ := round64_spec m s 0 d
  rw [roundMagnitude_zero m s 52 11 d hd, show unitsOf 52 0 = 0 by simp [unitsOf], magnitude64_eq_zero_iff] at hmag
  rw [eq_zero64_of_isZero64 hmag, hs]

/-- Where `roundMagnitude` answers the infinity and where it stays below, with the powers of two of the format written out. -/
theorem roundMagnitude_overflow_powers (m : RoundMode) (s : Bool) {mBits eBits n d p q : Nat} (hd : 0 < d) (he : 2 ≤ eBits)
    (hq : 2 ^ eBits - 3 = q) (hp : mBits + 1 + q = p) :
    (m.overflows s (2 ^ p) (2 ^ q) n d = true → roundMagnitude m s mBits eBits n d = (2 ^ eBits - 1) * 2 ^ mBits) ∧
    (m.overflows s (2 ^ p) (2 ^ q) n d = false → roundMagnitude m s mBits eBits n d < (2 ^ eBits - 1) * 2 ^ mBits) := by
  have h := roundMagnitude_overflow_iff m s mBits eBits n d hd he
  rw [← pow_add, hq, hp] at h
  exact ⟨h.mpr, fun ho => lt_of_le_of_ne (roundMagnitude_le ..) fun e => Bool.false_ne_true (ho.symm.trans (h.mp e))⟩

/-- `round64` answers the infinity where the fraction overflows, and a finite number elsewhere. -/
theorem round64_overflow (m : RoundMode) (s : Bool) {n d : Nat} (hd : 0 < d) :
    (m.overflows s (2 ^ 2098) (2 ^ 2045) n d = true → round64 m s n d = infinity64 s) ∧
    (m.overflows s (2 ^ 2098) (2 ^ 2045) n d = false → isFinite64 (round64 m s n d) = true) := by
  obtain ⟨h1, h2⟩ := roundMagnitude_overflow_powers m s (n := n) (mBits := 52) (eBits := 11) (p := 2098) (q := 2045) hd
    (by omega) rfl rfl
  rw [isFinite64_iff, (round64_spec m s n d).2.1]
  refine ⟨fun ho => ?_, h2⟩
  rw [round64, h1 ho]
  cases s <;> rfl

/-- `round32` likewise. -/
theorem round32_overflow (m : RoundMode) (s : Bool) {n d : Nat} (hd : 0 < d) :
    (m.overflows s (2 ^ 277) (2 ^ 253) n d = true → round32 m s n d = infinity32 s) ∧
    (m.overflows s (2 ^ 277) (2 ^ 253) n d = false → isFinite32 (round32 m s n d) = true) := by
  obtain ⟨h1, h2⟩ := roundMagnitude_overflow_powers m s (n := n) (mBits := 23) (eBits := 8) (p := 277) (q := 253) hd
    (by omega) rfl rfl
  rw [isFinite32_iff, (round32_spec m s n d).2.1]
  refine ⟨fun ho => ?_, h2⟩
  rw [round32, h1 ho]
  cases s <;> rfl

/-- The thresholds of overflow, counted in a unit `2^u` times as small. -/
theorem overflows_unit (m : RoundMode) (s : Bool) (n : Nat) {p q u p' q' : Nat} (hp : p + u = p') (hq : q + u = q') :
    m.overflows s (2 ^ p') (2 ^ q') n 1 = m.overflows s (2 ^ p) (2 ^ q) n (2 ^ u) := by
  rw [← hp, ← hq, pow_add, pow_add]
  generalize 2 ^ p = power
  generalize 2 ^ q = step
  generalize 2 ^ u = d
  have h1 : 2 * (power * d) - step * d = (2 * power - step) * d := by rw [Nat.sub_mul, Nat.mul_assoc]
  have h2 : power * d - step * d = (power - step) * d := (Nat.sub_mul _ _ _).symm
  simp only [RoundMode.overflows, h1, h2, Nat.mul_one]

/-- In round to nearest a whole number of units overflows from half a step below the power of two on. -/
theorem overflows_nearest {m : RoundMode} (hm : m.isNearest = true) (s : Bool) (power n : Nat) {q k : Nat} (hq : q = k + 1) :
    m.overflows s power (2 ^ q) n 1 = decide (power - 2 ^ k ≤ n) := by
  have h : m.overflows s power (2 ^ q) n 1 = decide ((2 * power - 2 ^ q) * 1 ≤ 2 * n) := by
    cases m with
    | nearestEven | nearestAway => rfl
    | _ => cases hm
  rw [h, hq, pow_succ, decide_eq_decide]
  omega

/-- Below half the power of two nothing overflows. -/
theorem overflows_eq_false (m : RoundMode) (s : Bool) {n d e p q : Nat} (hp : p = e + 1) (hq : q ≤ e) (hn : n < 2 ^ e * d) :
    m.overflows s (2 ^ p) (2 ^ q) n d = false := by
  have hstep : 2 ^ q ≤ 2 ^ e := pow_le_pow_right₀ one_le_two hq
  rw [hp, pow_succ]
  generalize 2 ^ e = half at *
  generalize 2 ^ q = step at *
  have h1 : half * d ≤ (half * 2 - step) * d := Nat.mul_le_mul_right d (by omega)
  have h2 : half * d ≤ half * 2 * d := Nat.mul_le_mul_right d (by omega)
  have h3 : 2 * (half * d) ≤ (2 * (half * 2) - step) * d := by
    rw [← Nat.mul_assoc]; exact Nat.mul_le_mul_right d (by omega)
  cases m <;> cases s <;>
    simp only [RoundMode.overflows, decide_eq_false_iff_not, if_true, if_false, Bool.false_eq_true] <;> omega

/-- A sum that is zero does not overflow. -/
theorem not_overflows_zero (m : RoundMode) (s : Bool) :
    m.overflows s (2 ^ 2098) (2 ^ 2045) (Int.natAbs 0) 1 = false :=
  overflows_eq_false m s (e := 2097) rfl (by omega) (Nat.mul_pos (pow_pos two_pos _) Nat.one_pos)

/-- A fraction below half the power of two is rounded to a finite number. -/
theorem round64_finite_of_lt (m : RoundMode) (s : Bool) {n d e : Nat} (hd : 0 < d) (he : e ≤ 2097)
    (hn : n < 2 ^ e * d) : isFinite64 (round64 m s n d) = true := by
  have hle : 2 ^ e * d ≤ 2 ^ 2097 * d := Nat.mul_le_mul_right d (pow_le_pow_right₀ one_le_two he)
  exact (round64_overflow m s hd).2 (overflows_eq_false m s (e := 2097) rfl (by omega) (hn.trans_le hle))

/-! ### `narrow` -/

/-- Settles O51: a finite number is narrowed by one rounding of its magnitude, counted in short units. -/
theorem narrowCorrectlyRounded : Obligations.NarrowCorrectlyRounded := by
  intro m t y z hy _ hfin
  rw [narrow_of_finite m t hy] at hfin ⊢
  have h := round32_picks m (sign64 y) (magnitude64 y) (2 ^ 925) z (pow_pos two_pos _) hfin
  rw [Nat.cast_pow, Nat.cast_ofNat, ← signed_div_right, ← value64_eq_signed] at h
  exact ⟨(round32_spec m _ _ _).1, h⟩

/-- Settles O52: the thresholds of the short format, counted in long units. -/
theorem narrowOverflowsExactlyFrom : Obligations.NarrowOverflowsExactlyFrom := by
  intro m t y hy
  obtain ⟨h1, h2⟩ := round32_overflow m (sign64 y) (n := magnitude64 y) (d := 2 ^ 925) (pow_pos two_pos _)
  rw [narrow_of_finite m t hy]
  rw [← overflows_unit m (sign64 y) (magnitude64 y) (u := 925) (p' := 1202) (q' := 1178) rfl rfl] at h1 h2
  exact ⟨h1, h2, fun hm => overflows_nearest hm _ _ _ rfl⟩

/-! ### The arithmetic -/

/-- A finite sum is one rounding of the exact sum; where that is zero, the sign is the one `zeroSum` gives. -/
theorem fadd_of_finite (m : RoundMode) (t : Nat) {a b : B64} (ha : isFinite64 a = true) (hb : isFinite64 b = true) :
    ∃ s, (value64 a + value64 b ≠ 0 → s = decide (value64 a + value64 b < 0)) ∧
      fadd m t a b = round64 m s (value64 a + value64 b).natAbs 1 := by
  have hzero : ∀ s, value64 a + value64 b = 0 → ∃ s', (value64 a + value64 b ≠ 0 → s' = decide (value64 a + value64 b < 0)) ∧
      zeroSum m t s a b = round64 m s' (value64 a + value64 b).natAbs 1 := fun s h =>
    ⟨_, fun hne => absurd h hne, by rw [h, Int.natAbs_zero, round64_zero m _ Nat.one_pos]; rfl⟩
  rw [fadd, if_neg (by simp [not_isNaN64_of_finite, not_isInf64_of_finite, ha, hb]),
    if_neg (by simp [not_isInf64_of_finite ha]), if_neg (by simp [not_isInf64_of_finite hb])]
  split
  next hz =>
    refine hzero _ ?_
    rw [(value64_eq_zero_iff a).mpr hz.1, (value64_eq_zero_iff b).mpr hz.2, Int.add_zero]
  next =>
    dsimp only
    split
    next h => exact hzero _ h
    next => exact ⟨_, fun _ => rfl, rfl⟩

/-- A finite product is one rounding of the exact product, zeros included. -/
theorem fmul_of_finite (m : RoundMode) (t : Nat) {a b : B64} (ha : isFinite64 a = true) (hb : isFinite64 b = true) :
    fmul m t a b = round64 m (sign64 a ^^ sign64 b) (magnitude64 a * magnitude64 b) (2 ^ 1074) := by
  simp only [fmul, not_isNaN64_of_finite ha, not_isNaN64_of_finite hb, not_isInf64_of_finite ha, not_isInf64_of_finite hb,
    Bool.false_eq_true, and_false, false_and, or_self, if_false]
  split
  next hz =>
    have h : magnitude64 a * magnitude64 b = 0 := by
      rwa [Nat.mul_eq_zero, magnitude64_eq_zero_iff, magnitude64_eq_zero_iff]
    rw [h, round64_zero m _ (pow_pos two_pos _)]
  next => rfl

/-- A finite quotient is one rounding of the exact quotient, a zero dividend included. -/
theorem fdiv_of_finite (m : RoundMode) (t : Nat) {a b : B64} (ha : isFinite64 a = true) (hb : isFinite64 b = true)
    (hz : isZero64 b = false) :
    fdiv m t a b = round64 m (sign64 a ^^ sign64 b) (magnitude64 a * 2 ^ 1074) (magnitude64 b) := by
  simp only [fdiv, not_isNaN64_of_finite ha, not_isNaN64_of_finite hb, not_isInf64_of_finite ha, not_isInf64_of_finite hb, hz,
    Bool.false_eq_true, and_false, or_self, if_false]
  split
  next h => rw [(magnitude64_eq_zero_iff a).mpr h, Nat.zero_mul, round64_zero m _ (magnitude64_pos hz)]
  next => rfl

theorem fsub_of_not_isNaN64 (m : RoundMode) (t : Nat) (a : B64) {b : B64} (hb : isNaN64 b = false) :
    fsub m t a b = fadd m t a (negate64 b) :=
  if_neg (by simp [hb])

/-- A finite sum is correctly rounded. -/
theorem fadd_picks {m : RoundMode} {t : Nat} {a b : B64} (z : B64) (ha : isFinite64 a = true) (hb : isFinite64 b = true)
    (hfin : isFinite64 (fadd m t a b) = true) :
    m.Picks (value64 a + value64 b) (value64 (fadd m t a b)) ((fadd m t a b).getLsbD 0 = false) (value64 z) := by
  obtain ⟨s, hs, e⟩ := fadd_of_finite m t ha hb
  rw [e] at hfin ⊢
  have h := round64_picks m s _ 1 z Nat.one_pos hfin
  rwa [Nat.cast_one, div_one, signed_natAbs hs, Int.cast_add] at h

/-- Settles O54: a finite difference is the sum with the negated value. -/
theorem faddFsubCorrectlyRounded : Obligations.FaddFsubCorrectlyRounded := by
  intro m t a b z
  refine ⟨fsub_of_not_isNaN64 m t a, fun ha hb _ => ⟨fadd_picks z ha hb, fun hfin => ?_⟩⟩
  rw [fsub_of_not_isNaN64 m t a (not_isNaN64_of_finite hb)] at hfin ⊢
  have h := fadd_picks z ha (by rwa [isFinite64_negate64]) hfin
  rwa [value64_negate64, Int.cast_neg, ← sub_eq_add_neg] at h

/-- Settles O55: signs and magnitudes multiply apart from each other. -/
theorem fmulCorrectlyRounded : Obligations.FmulCorrectlyRounded := by
  intro m t a b z ha hb _ hfin
  rw [fmul_of_finite m t ha hb] at hfin ⊢
  refine ⟨(round64_spec m _ _ _).1, ?_⟩
  have h := round64_picks m _ _ _ z (pow_pos two_pos _) hfin
  rwa [Nat.cast_pow, Nat.cast_ofNat, Nat.cast_mul, ← signed_div_right, ← signed_mul, ← value64_eq_signed,
    ← value64_eq_signed] at h

/-- Settles O56: signs and magnitudes divide apart from each other. -/
theorem fdivCorrectlyRounded : Obligations.FdivCorrectlyRounded := by
  intro m t a b z ha hb hz _ hfin
  rw [fdiv_of_finite m t ha hb hz] at hfin ⊢
  refine ⟨(round64_spec m _ _ _).1, ?_⟩
  have h := round64_picks m _ _ _ z (magnitude64_pos hz) hfin
  rwa [Nat.cast_mul, Nat.cast_pow, Nat.cast_ofNat, mul_div_right_comm, ← signed_mul_right, ← signed_div,
    ← value64_eq_signed, ← value64_eq_signed] at h

/-- Settles O58: each result is one rounding, and a sum that is zero, whose sign may be a free value, is below every
threshold. -/
theorem arithmeticOverflowsExactlyFrom : Obligations.ArithmeticOverflowsExactlyFrom := by
  intro m t a b ha hb
  obtain ⟨s, hs, e⟩ := fadd_of_finite m t ha hb
  have hsum := round64_overflow m s (n := (value64 a + value64 b).natAbs) Nat.one_pos
  refine ⟨fun ho => ?_, fun ho => ?_, ?_, ?_, ?_, ?_⟩
  · have hne : value64 a + value64 b ≠ 0 := fun h => by
      rw [h, not_overflows_zero] at ho
      exact Bool.false_ne_true ho
    rw [e, hs hne]
    exact (hs hne ▸ hsum).1 ho
  · rw [e]
    by_cases h : value64 a + value64 b = 0
    · rw [h] at hsum ⊢
      exact hsum.2 (not_overflows_zero ..)
    · exact hsum.2 (hs h ▸ ho)
  · rw [fmul_of_finite m t ha hb]
    exact (round64_overflow m _ (pow_pos two_pos _)).1
  · rw [fmul_of_finite m t ha hb]
    exact (round64_overflow m _ (pow_pos two_pos _)).2
  · intro hz
    rw [fdiv_of_finite m t ha hb hz]
    exact (round64_overflow m _ (magnitude64_pos hz)).1
  · intro hz
    rw [fdiv_of_finite m t ha hb hz]
    exact (round64_overflow m _ (magnitude64_pos hz)).2

/-! ### The special operands (R78) -/

theorem negate64_infinity64 (s : Bool) : negate64 (infinity64 s) = infinity64 (!s) :=
  eq_of_fields64 _ _ (by simp) (by simp) (by simp)

section NaN
/-! A NaN operand gives a NaN. -/

variable (m : RoundMode) (t : Nat) {n : B64} (y : B64)

theorem isNaN64_fadd_left (h : isNaN64 n = true) : isNaN64 (fadd m t n y) = true := by
  rw [fadd, if_pos (.inl h), isNaN64_nanResult64]

theorem isNaN64_fadd_right (h : isNaN64 n = true) : isNaN64 (fadd m t y n) = true := by
  rw [fadd, if_pos (.inr (.inl h)), isNaN64_nanResult64]

theorem isNaN64_fsub_right (h : isNaN64 n = true) : isNaN64 (fsub m t y n) = true := by
  rw [fsub, if_pos h, isNaN64_nanResult64]

theorem isNaN64_fsub_left (h : isNaN64 n = true) : isNaN64 (fsub m t n y) = true := by
  by_cases hy : isNaN64 y = true
  · exact isNaN64_fsub_right m t n hy
  · rw [fsub, if_neg hy]
    exact isNaN64_fadd_left m t _ h

theorem isNaN64_fmul_left (h : isNaN64 n = true) : isNaN64 (fmul m t n y) = true := by
  unfold fmul
  rw [if_pos (.inl h), isNaN64_nanResult64]

theorem isNaN64_fmul_right (h : isNaN64 n = true) : isNaN64 (fmul m t y n) = true := by
  unfold fmul
  rw [if_pos (.inr (.inl h)), isNaN64_nanResult64]

theorem isNaN64_fdiv_left (h : isNaN64 n = true) : isNaN64 (fdiv m t n y) = true := by
  unfold fdiv
  rw [if_pos (.inl h), isNaN64_nanResult64]

theorem isNaN64_fdiv_right (h : isNaN64 n = true) : isNaN64 (fdiv m t y n) = true := by
  unfold fdiv
  rw [if_pos (.inr (.inl h)), isNaN64_nanResult64]

theorem isNaN64_fsqrt (h : isNaN64 n = true) : isNaN64 (fsqrt m t n) = true := by
  rw [fsqrt, if_pos (.inl h), isNaN64_nanResult64]

end NaN

section Rows
/-! The rows of the table: each pair of operands falls into its own branch. -/

variable (m : RoundMode) (t : Nat) {x : B64} (p q : Bool)

theorem isNaN64_fadd_opposite_infinities : isNaN64 (fadd m t (infinity64 p) (infinity64 (!p))) = true := by
  rw [fadd, if_pos (by simp), isNaN64_nanResult64]

theorem fadd_infinity64_left (y : B64) (hy : isNaN64 y = false) (h : isInf64 y = true → sign64 y = p) :
    fadd m t (infinity64 p) y = infinity64 p := by
  rw [fadd, if_neg (by simp [hy]; exact fun e => (h e).symm), if_pos (by simp)]

theorem isNaN64_fsub_infinities : isNaN64 (fsub m t (infinity64 p) (infinity64 p)) = true := by
  rw [fsub_of_not_isNaN64 m t _ (isNaN64_infinity64 p), negate64_infinity64]
  exact isNaN64_fadd_opposite_infinities m t p

/-- A number and its negation add up to zero, whose sign is stated in round to nearest alone. -/
theorem fadd_cancel (hx : isFinite64 x = true) (hz : isZero64 x = false) :
    fadd m t x (negate64 x) = zeroSum m t false x (negate64 x) := by
  simp [fadd, not_isNaN64_of_finite hx, not_isInf64_of_finite hx, hz]

theorem fadd_zero64_zero64 : fadd m t (zero64 p) (zero64 q) = zeroSum m t (p && q) (zero64 p) (zero64 q) := by
  simp [fadd]

theorem zeroSum_nearest (hm : m.isNearest = true) (a b : B64) : zeroSum m t p a b = zero64 p := by
  rw [zeroSum, if_pos hm]

theorem isZero64_zeroSum (a b : B64) : isZero64 (zeroSum m t p a b) = true := isZero64_zero64 _

theorem isNaN64_fmul_zero64_infinity64 : isNaN64 (fmul m t (zero64 p) (infinity64 q)) = true := by
  simp [fmul, isNaN64_nanResult64]

theorem isNaN64_fmul_infinity64_zero64 : isNaN64 (fmul m t (infinity64 p) (zero64 q)) = true := by
  simp [fmul, isNaN64_nanResult64]

theorem fmul_zero64 (hx : isFinite64 x = true) :
    fmul m t x (zero64 q) = zero64 (sign64 x ^^ q) := by
  simp [fmul, not_isNaN64_of_finite hx, not_isInf64_of_finite hx]

theorem fmul_infinity64 (hx : isNaN64 x = false) (hz : isZero64 x = false) :
    fmul m t x (infinity64 q) = infinity64 (sign64 x ^^ q) := by
  simp [fmul, hx, hz]

theorem fdiv_zero64 (hx : isNaN64 x = false) (hz : isZero64 x = false) :
    fdiv m t x (zero64 q) = infinity64 (sign64 x ^^ q) := by
  simp [fdiv, hx, hz]

theorem fdiv_infinity64 (hx : isFinite64 x = true) :
    fdiv m t x (infinity64 q) = zero64 (sign64 x ^^ q) := by
  simp [fdiv, not_isNaN64_of_finite hx, not_isInf64_of_finite hx]

theorem infinity64_fdiv (hx : isFinite64 x = true) :
    fdiv m t (infinity64 p) x = infinity64 (p ^^ sign64 x) := by
  simp [fdiv, not_isNaN64_of_finite hx, not_isInf64_of_finite hx]

theorem zero64_fdiv (hx : isNaN64 x = false) (hz : isZero64 x = false) :
    fdiv m t (zero64 p) x = zero64 (p ^^ sign64 x) := by
  simp [fdiv, hx, hz]

theorem isNaN64_fdiv_zero64_zero64 : isNaN64 (fdiv m t (zero64 p) (zero64 q)) = true := by
  simp [fdiv, isNaN64_nanResult64]

theorem isNaN64_fdiv_infinity64_infinity64 : isNaN64 (fdiv m t (infinity64 p) (infinity64 q)) = true := by
  simp [fdiv, isNaN64_nanResult64]

theorem isNaN64_fsqrt_negative (hs : sign64 x = true) (hz : isZero64 x = false) : isNaN64 (fsqrt m t x) = true := by
  rw [fsqrt, if_pos (.inr ⟨hs, by simp [hz]⟩), isNaN64_nanResult64]

theorem fsqrt_of_isZero64 (hz : isZero64 x = true) (hn : isNaN64 x = false) : fsqrt m t x = x := by
  rw [fsqrt, if_neg (by simp [hz, hn]), if_pos hz]

theorem fsqrt_infinity64_false : fsqrt m t (infinity64 false) = infinity64 false := by
  simp [fsqrt]

/-- The sums that are zero, in round to nearest. -/
theorem zero_sums_nearest (hm : m.isNearest = true) (hx : isFinite64 x = true) (hz : isZero64 x = false) :
    fadd m t x (negate64 x) = zero64 false ∧ fsub m t x x = zero64 false ∧
      fadd m t (zero64 p) (zero64 q) = zero64 (p && q) ∧ fsub m t (zero64 p) (zero64 q) = zero64 (p && !q) := by
  have hcancel : fadd m t x (negate64 x) = zero64 false := by rw [fadd_cancel m t hx hz, zeroSum_nearest m t _ hm]
  have hzeros : ∀ q, fadd m t (zero64 p) (zero64 q) = zero64 (p && q) := fun q => by
    rw [fadd_zero64_zero64, zeroSum_nearest m t _ hm]
  refine ⟨hcancel, ?_, hzeros q, ?_⟩
  · rw [fsub_of_not_isNaN64 m t x (not_isNaN64_of_finite hx), hcancel]
  · rw [fsub_of_not_isNaN64 m t _ (isNaN64_zero64 q), negate64_zero64, hzeros]

end Rows

/-- Settles O59: the rows of R78 one by one, the last two of them with a zero for `x`. -/
theorem specialOperands : Obligations.SpecialOperands := by
  intro m t x y n p q hx hz hn
  have hxN := not_isNaN64_of_finite hx
  have hxI := not_isInf64_of_finite hx
  refine ⟨isNaN64_fadd_opposite_infinities m t p, isNaN64_fsub_infinities m t p,
    fadd_infinity64_left m t p x hxN (fun h => absurd h (by simp [hxI])),
    fadd_infinity64_left m t p _ (isNaN64_infinity64 p) (fun _ => sign64_infinity64 p),
    fun hm => zero_sums_nearest m t p q hm hx hz, ?_, ?_,
    isNaN64_fmul_zero64_infinity64 m t p q, isNaN64_fmul_infinity64_zero64 m t p q,
    fmul_zero64 m t q hx, fmul_infinity64 m t q hxN hz,
    isNaN64_fdiv_zero64_zero64 m t p q, isNaN64_fdiv_infinity64_infinity64 m t p q,
    fdiv_zero64 m t q hxN hz, infinity64_fdiv m t p hx, ?_, fdiv_infinity64 m t q hx, zero64_fdiv m t p hxN hz, ?_,
    fun hs => isNaN64_fsqrt_negative m t hs hz,
    isNaN64_fsqrt_negative m t (sign64_infinity64 true) (isZero64_infinity64 true),
    fsqrt_of_isZero64 m t (isZero64_zero64 p) (isNaN64_zero64 p), fsqrt_infinity64_false m t,
    isNaN64_fadd_left m t y hn, isNaN64_fadd_right m t y hn, isNaN64_fsub_left m t y hn, isNaN64_fsub_right m t y hn,
    isNaN64_fmul_left m t y hn, isNaN64_fmul_right m t y hn, isNaN64_fdiv_left m t y hn, isNaN64_fdiv_right m t y hn,
    isNaN64_fsqrt m t hn⟩
  · rw [fadd_cancel m t hx hz, isZero64_zeroSum]
  · rw [fadd_zero64_zero64, isZero64_zeroSum]
  · rw [infinity64_fdiv m t p (isFinite64_zero64 q), sign64_zero64]
  · rw [fdiv_infinity64 m t q (isFinite64_zero64 p), sign64_zero64]

/-! ### Exact results -/

/-- Every number of at most `mBits + 1` significant bits, scaled far enough up, is a magnitude of the format. -/
theorem exists_unitsOf (mBits k e : Nat) (hk : k ≤ 2 ^ (mBits + 1)) (he : mBits ≤ e) :
    ∃ bits, unitsOf mBits bits = k * 2 ^ e := by
  rcases Nat.eq_zero_or_pos k with rfl | hpos
  · exact ⟨0, by simp [unitsOf]⟩
  -- `up` brings the highest set bit of `k` to the place of the hidden bit
  have hlow := Nat.log2_self_le hpos.ne'
  have hhigh : k < 2 ^ (Nat.log2 k + 1) := Nat.lt_log2_self
  generalize hup : mBits - Nat.log2 k = up
  have hr : 2 ^ mBits ≤ k * 2 ^ up ∧ k * 2 ^ up ≤ 2 ^ (mBits + 1) := by
    rcases Nat.lt_or_ge mBits (Nat.log2 k) with h | h
    · have : 2 ^ mBits ≤ 2 ^ Nat.log2 k := pow_le_pow_right₀ one_le_two h.le
      rw [show up = 0 by omega, pow_zero, Nat.mul_one]
      exact ⟨this.trans hlow, hk⟩
    · rw [show mBits = Nat.log2 k + up by omega, pow_add, show Nat.log2 k + up + 1 = Nat.log2 k + 1 + up by omega, pow_add]
      exact ⟨Nat.mul_le_mul_right _ hlow, Nat.mul_le_mul_right _ hhigh.le⟩
  refine ⟨(e - up) * 2 ^ mBits + k * 2 ^ up, ?_⟩
  rw [unitsOf_scaled mBits (e - up) _ (.inr hr.1) hr.2, Nat.mul_assoc, ← pow_add, show up + (e - up) = e by omega]

/-- A fraction that is a magnitude of the long format is not rounded. -/
theorem magnitude64_round64_of_unitsOf (m : RoundMode) (s : Bool) {n d bits : Nat} (hd : 0 < d) (h : unitsOf 52 bits * d = n)
    (hfin : isFinite64 (round64 m s n d) = true) : magnitude64 (round64 m s n d) = unitsOf 52 bits := by
  obtain ⟨-, hb, hmag⟩ := round64_spec m s n d
  rw [isFinite64_iff, hb] at hfin
  obtain ⟨h1, h2⟩ := roundMagnitude_between m s 52 11 n d bits hd hfin
  rw [hmag]
  exact le_antisymm (h2 h.ge) (h1 h.le)

/-- A number of at most 53 significant bits, scaled by `2^e` units, is rounded to itself. -/
theorem round64_exact (m : RoundMode) (s : Bool) {k e : Nat} (hk : k ≤ 2 ^ 53) (he : 52 ≤ e) (he' : e ≤ 2043) :
    isFinite64 (round64 m s (k * 2 ^ e) 1) = true ∧ magnitude64 (round64 m s (k * 2 ^ e) 1) = k * 2 ^ e := by
  obtain ⟨bits, hbits⟩ := exists_unitsOf 52 k e hk he
  have hlt : k * 2 ^ e < 2 ^ (54 + e) * 1 := by
    rw [Nat.mul_one, pow_add]
    exact Nat.mul_lt_mul_of_pos_right (by omega) (pow_pos two_pos _)
  have hfin := round64_finite_of_lt m s Nat.one_pos (by omega) hlt
  refine ⟨hfin, ?_⟩
  rw [← hbits] at hfin ⊢
  exact magnitude64_round64_of_unitsOf m s Nat.one_pos (Nat.mul_one _) hfin

/-- Rounding does not pass a magnitude of the format from above. -/
theorem le_magnitude64_round64 (m : RoundMode) (s : Bool) {n d k e : Nat} (hk : k ≤ 2 ^ 53) (he : 52 ≤ e) (hd : 0 < d)
    (hfin : isFinite64 (round64 m s n d) = true) (h : k * 2 ^ e * d ≤ n) : k * 2 ^ e ≤ magnitude64 (round64 m s n d) := by
  obtain ⟨bits, hbits⟩ := exists_unitsOf 52 k e hk he
  obtain ⟨-, hb, hmag⟩ := round64_spec m s n d
  rw [isFinite64_iff, hb] at hfin
  rw [hmag, ← hbits]
  exact (roundMagnitude_between m s 52 11 n d bits hd hfin).1 (by rwa [hbits])

/-! ### Integer conversion -/

/-- A finite number of at least `2^52` units is normal. -/
theorem isNormal64_of_le {y : B64} (hfin : isFinite64 y = true) (h : 2 ^ 52 ≤ magnitude64 y) : isNormal64 y = true := by
  rw [isNormal64, Bool.and_eq_true]
  refine ⟨bne_iff_ne.mpr fun e => ?_, hfin⟩
  have hm := (mantissa64 y).isLt
  rw [magnitude64_of_exponent_zero e] at h
  omega

/-- No 64-bit integer overflows. -/
theorem intToB64_finite (m : RoundMode) {n : Int} (hlo : -2 ^ 63 ≤ n) (hhi : n < 2 ^ 63) :
    isFinite64 (intToB64 m n) = true := by
  have hlt : n.natAbs * 2 ^ 1074 < 2 ^ (64 + 1074) * 1 := by
    rw [Nat.mul_one, pow_add]
    exact Nat.mul_lt_mul_of_pos_right (by omega) (pow_pos two_pos _)
  exact round64_finite_of_lt m _ Nat.one_pos (by omega) hlt

/-- An integer other than zero is at least one, which is normal. -/
theorem intToB64_isNormal64 (m : RoundMode) {n : Int} (hfin : isFinite64 (intToB64 m n) = true) (hne : n ≠ 0) :
    isNormal64 (intToB64 m n) = true := by
  have hone : 1 * 2 ^ 1074 * 1 ≤ n.natAbs * 2 ^ 1074 := by
    rw [Nat.mul_one]
    exact Nat.mul_le_mul_right _ (by omega)
  have hle := le_magnitude64_round64 m (decide (n < 0)) (by omega) (by omega) Nat.one_pos hfin hone
  have hunit : 2 ^ 52 ≤ 1 * 2 ^ 1074 := by
    rw [Nat.one_mul]
    exact pow_le_pow_right₀ one_le_two (by omega)
  exact isNormal64_of_le hfin (hunit.trans hle)

/-- A converted integer is correctly rounded. -/
theorem intToB64_picks (m : RoundMode) {n : Int} (z : B64) (hfin : isFinite64 (intToB64 m n) = true) :
    m.Picks ((n : ℝ) * 2 ^ 1074) (value64 (intToB64 m n)) ((intToB64 m n).getLsbD 0 = false) (value64 z) := by
  have h := round64_picks m _ _ 1 z Nat.one_pos hfin
  rwa [Nat.cast_one, div_one, Nat.cast_mul, Nat.cast_pow, Nat.cast_ofNat, ← signed_mul_right, signed_natAbs fun _ => rfl] at h

/-- An integer of at most 53 significant bits is not rounded. -/
theorem value64_intToB64_exact (m : RoundMode) {n : Int} (hn : n.natAbs ≤ 2 ^ 53) : value64 (intToB64 m n) = n * 2 ^ 1074 := by
  have hmag : magnitude64 (intToB64 m n) = n.natAbs * 2 ^ 1074 := (round64_exact m _ hn (by omega) (by omega)).2
  have hs : sign64 (intToB64 m n) = decide (n < 0) := (round64_spec m _ _ _).1
  rw [value64, hs, hmag, Nat.cast_mul, Nat.cast_pow, Nat.cast_ofNat]
  split
  next h => rw [← Int.neg_mul, Int.ofNat_natAbs_of_nonpos (by simpa using (of_decide_eq_true h).le), Int.neg_neg]
  next h => rw [Int.natAbs_of_nonneg (by simpa using h)]

/-- Settles O60: an integer is rounded once, within the normal numbers; `-2^63` is a closed evaluation in each mode. -/
theorem integerConversion : Obligations.IntegerConversion := by
  intro m
  refine ⟨?_, ?_, fun n hlo hhi hne => ?_, fun n hlo hhi => value64_intToB64_exact m (by omega)⟩
  · rw [intToB64, Int.natAbs_zero, Nat.zero_mul, round64_zero m _ Nat.one_pos]
    rfl
  · cases m <;> decide +kernel
  · have hfin := intToB64_finite m hlo hhi
    exact ⟨intToB64_isNormal64 m hfin hne, (round64_spec m _ _ _).1, fun z _ => intToB64_picks m z hfin⟩

/-! ### The square root -/

/-- Twice what `fsqrt` rounds in place of the root of `x`: the whole part `r` of the root, and a half more where the root is not
whole (R70). -/
def doubledRoot (r x : Nat) : Nat := if r * r = x then 2 * r else 2 * r + 1

/-- Half of `doubledRoot` lies on the root's side of every whole number. -/
theorem doubledRoot_sides {r x : Nat} (h1 : r * r ≤ x) (h2 : x < (r + 1) * (r + 1)) (c : ℤ) :
    ((c : ℝ) ≤ (doubledRoot r x : ℝ) / 2 ↔ (c : ℝ) ≤ √x) ∧ ((doubledRoot r x : ℝ) / 2 ≤ c ↔ √x ≤ c) := by
  by_cases h : r * r = x
  · have hroot : √(x : ℝ) = (doubledRoot r x : ℝ) / 2 := by
      rw [doubledRoot, if_pos h, ← h, Nat.cast_mul, Real.sqrt_mul_self (Nat.cast_nonneg r)]
      push_cast
      ring
    rw [hroot]
    exact ⟨Iff.rfl, Iff.rfl⟩
  · have hlow : (r : ℝ) < √x := by
      rw [Real.lt_sqrt (Nat.cast_nonneg r), sq]
      exact_mod_cast lt_of_le_of_ne h1 h
    have hhigh : √x < (r : ℝ) + 1 := by
      rw [Real.sqrt_lt' (by positivity), sq]
      exact_mod_cast h2
    have hmid : (doubledRoot r x : ℝ) / 2 = r + 1 / 2 := by
      rw [doubledRoot, if_neg h]
      push_cast
      ring
    rw [hmid]
    -- a whole number is at most `r` or at least `r + 1`
    rcases le_or_gt c (r : ℤ) with hc | hc
    · have hc : (c : ℝ) ≤ r := by exact_mod_cast hc
      exact ⟨iff_of_true (by linarith) (by linarith), iff_of_false (by linarith) (by linarith)⟩
    · have hc : (r : ℝ) + 1 ≤ c := by exact_mod_cast hc
      exact ⟨iff_of_false (by linarith) (by linarith), iff_of_true (by linarith) (by linarith)⟩

theorem significand64_bounds {b : B64} (hz : isZero64 b = false) : 0 < significand64 b ∧ significand64 b < 2 ^ 53 := by
  have hm := (mantissa64 b).isLt
  have hpos := magnitude64_pos hz
  rw [magnitude64] at hpos
  refine ⟨Nat.pos_of_mul_pos_right hpos, ?_⟩
  rw [significand64]
  split <;> omega

theorem scale64_le {b : B64} (hb : isFinite64 b = true) : scale64 b ≤ 2045 := by
  have hlt := (exponent64 b).isLt
  have hne : (exponent64 b).toNat ≠ 2047 := fun e => by
    have : exponent64 b = 0x7FF#11 := BitVec.eq_of_toNat_eq e
    simp [isFinite64, this] at hb
  rw [scale64]
  omega

/-- What `fsqrt` rounds for a finite number above zero: the root of a radicand `x` of more than 110 bits, whose whole part is `r`,
in steps of `2^half`. -/
theorem fsqrt_of_positive (m : RoundMode) (t : Nat) {b : B64} (hb : isFinite64 b = true) (hs : sign64 b = false)
    (hz : isZero64 b = false) :
    ∃ x r half, x * 2 ^ (2 * half) = magnitude64 b * 2 ^ 1074 ∧ half ≤ 1504 ∧ 2 ^ 110 ≤ x ∧ r < 2 ^ 82 ∧
      r * r ≤ x ∧ x < (r + 1) * (r + 1) ∧ fsqrt m t b = round64 m false (doubledRoot r x * 2 ^ half) 2 := by
  obtain ⟨hsig, hsig'⟩ := significand64_bounds hz
  have hscale := scale64_le hb
  have hx : 2 ^ 110 ≤ significand64 b * 2 ^ (110 + scale64 b % 2) :=
    (pow_le_pow_right₀ one_le_two (by omega)).trans (Nat.le_mul_of_pos_left _ hsig)
  have hx' : significand64 b * 2 ^ (110 + scale64 b % 2) < 4 ^ 82 := by
    calc significand64 b * 2 ^ (110 + scale64 b % 2) ≤ significand64 b * 2 ^ 111 :=
          Nat.mul_le_mul_left _ (pow_le_pow_right₀ one_le_two (by omega))
      _ < 2 ^ 53 * 2 ^ 111 := Nat.mul_lt_mul_of_pos_right hsig' (by decide)
      _ = 4 ^ 82 := by decide
  obtain ⟨hr, hr'⟩ := squareRoot_spec 82 _ hx'
  refine ⟨_, _, (scale64 b + 1074 - (110 + scale64 b % 2)) / 2, ?_, by omega, hx, ?_, hr, hr', ?_⟩
  · rw [magnitude64]
    exact mul_two_pow_congr _ (by omega)
  · by_contra h
    have : 2 ^ 82 * 2 ^ 82 ≤ squareRoot 82 _ * squareRoot 82 _ := Nat.mul_le_mul (not_lt.mp h) (not_lt.mp h)
    omega
  · rw [fsqrt, if_neg (by simp [not_isNaN64_of_finite hb, hs]), if_neg (by simp [hz]), if_neg (by simp [not_isInf64_of_finite hb])]
    rfl

theorem doubledRoot_bounds (r x : Nat) : 2 * r ≤ doubledRoot r x ∧ doubledRoot r x ≤ 2 * r + 1 := by
  rw [doubledRoot]
  split <;> omega

/-- No square root overflows. -/
theorem round64_doubledRoot_finite (m : RoundMode) {r x half : Nat} (hr : r < 2 ^ 82) (hhalf : half ≤ 1504) :
    isFinite64 (round64 m false (doubledRoot r x * 2 ^ half) 2) = true := by
  have hdouble := (doubledRoot_bounds r x).2
  refine round64_finite_of_lt m false (e := 83 + half) two_pos (by omega) ?_
  calc doubledRoot r x * 2 ^ half < 2 ^ 83 * 2 ^ half := Nat.mul_lt_mul_of_pos_right (by omega) (pow_pos two_pos _)
    _ ≤ 2 ^ (83 + half) * 2 := by rw [← pow_add]; omega

/-- What the mode picks as against a number at most the exact one, it picks as against every smaller number. -/
theorem picks_of_lt {m : RoundMode} {x r w z : ℝ} {even : Prop} (h : m.Picks x r even w) (hx : 0 ≤ x) (hwx : w ≤ x)
    (hzw : z < w) : m.Picks x r even z := by
  have hfar : |x - w| < |x - z| := by
    rw [abs_of_nonneg (by linarith), abs_of_nonneg (by linarith)]
    linarith
  cases m with
  | nearestEven | nearestAway => exact ⟨h.1.trans hfar.le, fun e => absurd (e ▸ h.1) hfar.not_ge⟩
  | towardZero =>
    obtain ⟨hle, hbest⟩ := h.1 hx
    exact ⟨fun _ => ⟨hle, fun _ => hzw.le.trans (hbest hwx)⟩, fun hx' => ⟨(h.2 hx').1, fun hz => by linarith⟩⟩
  | towardPositive => exact ⟨h.1, fun hz => by linarith⟩
  | towardNegative => exact ⟨h.1, fun _ => hzw.le.trans (h.2 hwx)⟩

/-- A long number of at least `2^(52 + q)` units is a whole number of steps `2^q`. -/
theorem value64_step {y : B64} {q : Nat} (h : (2 : ℝ) ^ (52 + q) ≤ value64 y) : ∃ c : ℤ, (value64 y : ℝ) = c * 2 ^ q := by
  have hs : sign64 y = false := by
    by_contra hs
    have : (0 : ℝ) < 2 ^ (52 + q) := by positivity
    rw [value64_eq_signed, signed, if_pos (by simpa using hs)] at h
    have := Nat.cast_nonneg (α := ℝ) (magnitude64 y)
    linarith
  rw [value64_of_sign_false hs, magnitude64_eq_unitsOf] at h ⊢
  obtain ⟨c, hc⟩ := unitsOf_step 52 q _ (.inr (by exact_mod_cast h))
  exact ⟨c, by rw [hc]; push_cast; rfl⟩

/-- The powers of two are numbers of the format. -/
theorem exists_value64_eq_two_pow {e : Nat} (he : 52 ≤ e) (he' : e ≤ 2043) : ∃ w : B64, (value64 w : ℝ) = 2 ^ e := by
  obtain ⟨-, hmag⟩ := round64_exact .nearestEven false (k := 1) (by omega) he he'
  refine ⟨round64 .nearestEven false (1 * 2 ^ e) 1, ?_⟩
  rw [value64_of_sign_false (round64_spec _ _ _ _).1, hmag, Nat.one_mul]
  push_cast
  rfl

/-- The same in steps of `2^half`. -/
theorem doubledRoot_sides_scaled {r x : Nat} (h1 : r * r ≤ x) (h2 : x < (r + 1) * (r + 1)) (half : Nat) (c : ℤ) {y : ℝ}
    (hy : y = c * 2 ^ half) :
    (y ≤ ((doubledRoot r x * 2 ^ half : Nat) : ℝ) / (2 : Nat) ↔ y ≤ √x * 2 ^ half) ∧
      (((doubledRoot r x * 2 ^ half : Nat) : ℝ) / (2 : Nat) ≤ y ↔ √x * 2 ^ half ≤ y) := by
  have hpos : (0 : ℝ) < 2 ^ half := by positivity
  obtain ⟨hle, hge⟩ := doubledRoot_sides h1 h2 c
  rw [hy, Nat.cast_mul, Nat.cast_pow, Nat.cast_ofNat, mul_div_right_comm, mul_le_mul_iff_left₀ hpos, mul_le_mul_iff_left₀ hpos,
    mul_le_mul_iff_left₀ hpos, mul_le_mul_iff_left₀ hpos]
  exact ⟨hle, hge⟩

/-- The root of a radicand of more than 110 bits has at least 56. -/
theorem two_pow_le_root {r x : Nat} (hx : 2 ^ 110 ≤ x) (h2 : x < (r + 1) * (r + 1)) : 2 ^ 55 ≤ r := by
  by_contra hr
  have : (r + 1) * (r + 1) ≤ 2 ^ 55 * 2 ^ 55 := Nat.mul_le_mul (by omega) (by omega)
  omega

/-- A rounded root has at least 54 bits above the step `2^half`. -/
theorem le_round64_doubledRoot (m : RoundMode) {r x half : Nat} (hr : 2 ^ 55 ≤ r)
    (hfin : isFinite64 (round64 m false (doubledRoot r x * 2 ^ half) 2) = true) :
    (2 : ℝ) ^ (53 + half) ≤ value64 (round64 m false (doubledRoot r x * 2 ^ half) 2) := by
  have hdouble := (doubledRoot_bounds r x).1
  have hlow : 1 * 2 ^ (53 + half) * 2 ≤ doubledRoot r x * 2 ^ half := by
    calc 1 * 2 ^ (53 + half) * 2 = 2 ^ 54 * 2 ^ half := by rw [pow_add]; ring
      _ ≤ doubledRoot r x * 2 ^ half := Nat.mul_le_mul_right _ (by omega)
  have h := le_magnitude64_round64 m false (by omega) (by omega) two_pos hfin hlow
  rw [Nat.one_mul] at h
  rw [value64_of_sign_false (round64_spec m false _ 2).1]
  exact_mod_cast h

/-- The mode picks for the root itself what it picks for the fraction that `fsqrt` rounds, as against a number from `2^(53 + half)`
on: that number and the result are whole numbers of steps `2^(half + 1)`, so they and the point half-way between them lie on the
same side of both. -/
theorem round64_doubledRoot_picks_of_le (m : RoundMode) {r x half : Nat} (hr : 2 ^ 55 ≤ r) (h1 : r * r ≤ x)
    (h2 : x < (r + 1) * (r + 1)) {z : B64} (hfin : isFinite64 (round64 m false (doubledRoot r x * 2 ^ half) 2) = true)
    (hz : (2 : ℝ) ^ (53 + half) ≤ value64 z) :
    m.Picks (√x * 2 ^ half) (value64 (round64 m false (doubledRoot r x * 2 ^ half) 2))
      ((round64 m false (doubledRoot r x * 2 ^ half) 2).getLsbD 0 = false) (value64 z) := by
  have hresult := le_round64_doubledRoot m hr hfin
  have hpicks := round64_picks m false (doubledRoot r x * 2 ^ half) 2 z two_pos hfin
  rw [signed, if_neg Bool.false_ne_true] at hpicks
  rw [show 53 + half = 52 + (half + 1) by omega] at hresult hz
  obtain ⟨c, hc⟩ := value64_step hz
  obtain ⟨d, hd⟩ := value64_step hresult
  refine picks_transfer m _ _ _ _ _ hpicks ?_
  rintro y (hy | hy | hy | hy)
  · exact doubledRoot_sides_scaled h1 h2 half 0 (by rw [hy]; simp)
  · exact doubledRoot_sides_scaled h1 h2 half (2 * d) (by rw [hy, hd]; push_cast; ring)
  · exact doubledRoot_sides_scaled h1 h2 half (2 * c) (by rw [hy, hc]; push_cast; ring)
  · exact doubledRoot_sides_scaled h1 h2 half (d + c) (by rw [hy, hc, hd]; push_cast; ring)

/-- The same as against every number: one below `2^(53 + half)` lies further from the root than `2^(53 + half)`, itself a number of
the format. -/
theorem round64_doubledRoot_picks (m : RoundMode) {r x half : Nat} (hx : 2 ^ 110 ≤ x) (h1 : r * r ≤ x)
    (h2 : x < (r + 1) * (r + 1)) (hhalf : half ≤ 1504) (z : B64)
    (hfin : isFinite64 (round64 m false (doubledRoot r x * 2 ^ half) 2) = true) :
    m.Picks (√x * 2 ^ half) (value64 (round64 m false (doubledRoot r x * 2 ^ half) 2))
      ((round64 m false (doubledRoot r x * 2 ^ half) 2).getLsbD 0 = false) (value64 z) := by
  have hr := two_pow_le_root hx h2
  rcases le_or_gt ((2 : ℝ) ^ (53 + half)) (value64 z) with hz | hz
  · exact round64_doubledRoot_picks_of_le m hr h1 h2 hfin hz
  · obtain ⟨w, hw⟩ := exists_value64_eq_two_pow (e := 53 + half) (by omega) (by omega)
    have hroot : (2 : ℝ) ^ (53 + half) ≤ √x * 2 ^ half := by
      have hsqrt : (r : ℝ) ≤ √x := Real.le_sqrt_of_sq_le (by rw [sq]; exact_mod_cast h1)
      have hr' : (2 : ℝ) ^ 53 ≤ r := by exact_mod_cast (show 2 ^ 53 ≤ r by omega)
      rw [pow_add]
      exact mul_le_mul_of_nonneg_right (hr'.trans hsqrt) (by positivity)
    exact picks_of_lt (round64_doubledRoot_picks_of_le m hr h1 h2 hfin hw.ge) (by positivity) (hw ▸ hroot) (hw ▸ hz)

/-- What is exact is picked, in every mode. -/
theorem picks_self (m : RoundMode) (x z : ℝ) (even : Prop) : m.Picks x x even z := by
  have hnear : |x - x| ≤ |x - z| := by simp
  have htie : |x - x| = |x - z| → z = x := fun h => by
    rw [sub_self, abs_zero, eq_comm, abs_eq_zero, sub_eq_zero] at h
    exact h.symm
  cases m with
  | nearestEven | nearestAway => exact ⟨hnear, fun h hne => absurd (htie h) hne⟩
  | towardZero => exact ⟨fun _ => ⟨le_rfl, id⟩, fun _ => ⟨le_rfl, id⟩⟩
  | towardPositive | towardNegative => exact ⟨le_rfl, id⟩

/-- Settles O57: `+0` is its own root; any other number has the root of its radicand, scaled. -/
theorem fsqrtCorrectlyRounded : Obligations.FsqrtCorrectlyRounded := by
  intro m t b z hb hs _
  cases hz : isZero64 b with
  | true =>
    have hval : (value64 b : ℝ) = 0 := by exact_mod_cast (value64_eq_zero_iff b).mpr hz
    rw [fsqrt_of_isZero64 m t hz (not_isNaN64_of_finite hb), hval, zero_mul, Real.sqrt_zero]
    exact ⟨hb, hs, picks_self m 0 _ _⟩
  | false =>
    obtain ⟨x, r, half, hscaled, hhalf, hx, hr, h1, h2, e⟩ := fsqrt_of_positive m t hb hs hz
    rw [e]
    have hfin := round64_doubledRoot_finite m (x := x) hr hhalf
    have hroot : √((value64 b : ℝ) * 2 ^ 1074) = √x * 2 ^ half := by
      have hval : (value64 b : ℝ) * 2 ^ 1074 = x * (2 ^ half * 2 ^ half) := by
        calc (value64 b : ℝ) * 2 ^ 1074 = ((magnitude64 b * 2 ^ 1074 : Nat) : ℝ) := by
              rw [value64_of_sign_false hs, Nat.cast_mul, Nat.cast_pow, Nat.cast_ofNat]
          _ = (x : ℝ) * (2 ^ half * 2 ^ half) := by
              rw [← hscaled, Nat.cast_mul, Nat.cast_pow, Nat.cast_ofNat, two_mul, pow_add]
      rw [hval, Real.sqrt_mul (Nat.cast_nonneg x), Real.sqrt_mul_self (by positivity)]
    rw [hroot]
    exact ⟨hfin, (round64_spec m false _ 2).1, round64_doubledRoot_picks m hx h1 h2 hhalf z hfin⟩

end Sys2Proof.Machine
end

section
/-! PROOFS. Family 41_register_access.md: what the step runs, which instructions stop, the whole effect of COGET and COSET of
registers 0 to 3, and numbers that pass through the accumulators. -/

namespace Sys2Proof.Machine

open Config (RoundMode)

/-! ### The step runs the word at `pc` -/

theorem step_of_fetchWord {s : State} {w : InstrWord} {i : Instr} (hfetch : s.fetchWord = .ok w)
    (hdecode : decodeWord w = .ok i) : step s = exec i s := by
  simp only [step, hfetch, hdecode]

/-- Decoding of bytes is recognition of the word that the first two of them make. -/
theorem decodeWord_of_decode {low high : Byte} {rest rest' : List Byte} {i : Instr}
    (h : decode (low :: high :: rest) = .ok (i, rest')) : decodeWord (high ++ low) = .ok i := by
  cases hword : decodeWord (high ++ low) with
  | ok j =>
    simp only [decode, hword] at h
    cases h
    rfl
  | error e =>
    simp only [decode, hword] at h
    cases h

/-- Settles O11: the fetch answers the word of the two bytes, which is the one that decoding them recognises. -/
theorem stepRunsDecodedInstruction : Obligations.StepRunsDecodedInstruction := by
  intro s low high i rest hpc hlow hhigh hdecode
  exact step_of_fetchWord (s.fetchWord_of_bytes low high hpc hlow hhigh) (decodeWord_of_decode hdecode)

theorem State.fetchWord_of_readLE {s : State} {v : Nat} (hpc : s.pcAligned) (h : Memory.readLE s.mem s.pc 2 = some v) :
    s.fetchWord = .ok (BitVec.ofNat 16 v) := by
  rw [State.fetchWord, hpc, h]
  rfl

/-- The fetch answers the word that was placed. -/
theorem State.fetchWord_withFetchWord {s : State} (w : Nat) (hpc : s.pcAligned) :
    (s.withFetchWord 16 w).fetchWord = .ok (BitVec.ofNat 16 w) := by
  have hread : Memory.readLE (s.withFetchWord 16 w).mem (s.withFetchWord 16 w).pc 2 = some (w % 2 ^ 16 % 256 ^ 2) :=
    Memory.readLE_writeLE s.mem s.pc 2 (w % 2 ^ 16) (by omega)
  rw [State.fetchWord_of_readLE (s := s.withFetchWord 16 w) hpc hread]
  congr 1
  apply BitVec.eq_of_toNat_eq
  simp only [BitVec.toNat_ofNat]
  omega

/-- A table word of sixteen bits is recognised as the word it is. -/
theorem decodeWord_of_decodeTableWord {w : Nat} {i : Instr} (h : decodeTableWord 16 w = some i) :
    decodeWord (BitVec.ofNat 16 w) = .ok i := by
  have hbytes : BitVec.ofNat 8 (w % 2 ^ 16 / 256) ++ BitVec.ofNat 8 (w % 2 ^ 16) = BitVec.ofNat 16 w := by
    apply BitVec.eq_of_toNat_eq
    rw [toNat_concat]
    simp only [BitVec.toNat_ofNat]
    omega
  unfold decodeTableWord at h
  split at h
  · next hdecode =>
    cases h
    exact hbytes ▸ decodeWord_of_decode hdecode
  · cases h

/-- Settles O14: the fetch answers the placed word, and the two bytes of it lie at `pc + 0` and `pc + 1`. -/
theorem placedWordRunsNext : Obligations.PlacedWordRunsNext := by
  intro s w i hpc hdecode
  refine ⟨step_of_fetchWord (State.fetchWord_withFetchWord w hpc) (decodeWord_of_decodeTableWord hdecode),
    fun a hlow hhigh => Memory.read_writeLE_other s.mem s.pc 2 (w % 2 ^ 16) a fun j hj => ?_⟩
  obtain rfl | rfl : j = 0 ∨ j = 1 := by omega
  · simpa using hlow
  · exact hhigh

/-! ### Which instructions stop -/

/-- The outcomes an instruction can have: COSTAT is accessed unchecked, every other register behind the availability check, and
behind it the undefined COGET operations stop. -/
inductive ExecOutcome (i : Instr) (s : State) : Host.Outcome State Fault Refusal → Prop where
  | unchecked (t : State) (hcostat : i.number = 0#4) : ExecOutcome i s (.next t)
  | checked (t : State) (hnumber : i.number ≠ 0#4) (hdefined : i.format = 0b0011#4 → i.number.msb = false) :
      ExecOutcome i s (s.ifAvailable i (.next t))
  | undefined (hformat : i.format = 0b0011#4) (hnumber : i.number.msb = true) :
      ExecOutcome i s (s.ifAvailable i (.fault (.undefinedCoprocessorOperation (encode i) s.costat)))

/-- An instruction that names an accumulator is checked and defined: those of COGET have `op` up to 3. -/
theorem ExecOutcome.of_accumulator {i : Instr} {k : Accumulator} {s : State} (t : State) (hnames : i.accumulator = some k) :
    ExecOutcome i s (s.ifAvailable i (.next t)) := by
  refine .checked t (Instr.number_ne_of_accumulator hnames).1 fun hformat => ?_
  obtain ⟨op, hop, hnumber⟩ : ∃ op : BitVec 3, op.msb = false ∧ i.number = op ++ k.bit := by
    cases i <;> cases hnames <;> cases hformat <;> exact ⟨_, by decide, rfl⟩
  rw [hnumber, BitVec.msb_append]
  exact hop

theorem fault_eq_iff {e f : Fault} : (.fault e : Host.Outcome State Fault Refusal) = .fault f ↔ f = e :=
  ⟨fun h => by cases h; rfl, fun h => by rw [h]⟩

theorem exec_outcome (i : Instr) (s : State) (hi : i.WellFormed) : ExecOutcome i s (exec i s) := by
  cases i with
  | cogetCostat | cosetCostat => exact .unchecked _ rfl
  | cogetFplow | cosetFplow => exact .checked _ (show 1#4 ≠ 0#4 by decide) (fun _ => show (1#4).msb = false by decide)
  | cogetUndefined dst number => exact .undefined rfl hi
  | cogetFpa | cogetFpneg | cogetFpabs | cosetFpa | cosetFpint | cosetFpsqrt | cosetFpadd | cosetFpsub | cosetFpmul
  | cosetFpdiv => exact .of_accumulator _ rfl

/-- Settles O19: each outcome with the unit available and with it unavailable. -/
theorem execStopsExactly : Obligations.ExecStopsExactly := by
  intro i s hi
  have houtcome := exec_outcome i s hi
  generalize exec i s = r at *
  cases houtcome with
  | unchecked t hcostat => simp [hcostat]
  | checked t hnumber hdefined =>
    cases ha : s.available with
    | true =>
      rw [State.ifAvailable_of_available _ _ _ ha]
      simpa using fun f hf hm _ => Bool.false_ne_true ((hdefined hf).symm.trans hm)
    | false =>
      rw [State.ifAvailable_of_not_available _ _ _ ha]
      exact ⟨by simp, fun f => by rw [fault_eq_iff]; simp [hnumber]⟩
  | undefined hformat hnumber =>
    cases ha : s.available with
    | true =>
      rw [State.ifAvailable_of_available _ _ _ ha]
      exact ⟨by simp, fun f => by rw [fault_eq_iff]; simp [hformat, hnumber]⟩
    | false =>
      have hne : i.number ≠ 0#4 := fun e => by simp [e] at hnumber
      rw [State.ifAvailable_of_not_available _ _ _ ha]
      exact ⟨by simp, fun f => by rw [fault_eq_iff]; simp [hne]⟩

/-! ### The instruction words -/

/-- The word of an instruction that names no accumulator and is defined: its row's word with the register in `I[3:0]`. -/
theorem encode_toNat_of_fullMask {i : Instr} (h : i.rowMask = 0xFFF0#16) :
    (encode i).toNat = i.rowMatch.toNat + i.reg.toNat := by
  have hrow : i.rowMatch = i.format ++ i.number ++ 0b0001#4 ++ 0#4 := by
    cases i <;> cases h <;> simp [Instr.rowMatch, Instr.format, Instr.number]
  rw [encode, hrow, word_toNat, word_toNat]
  simp

/-- The word of an instruction that names an accumulator: its row's word with `fr` in `I[8]` and the register in `I[3:0]`. -/
theorem encode_toNat_of_accumulator {i : Instr} {k : Accumulator} (h : i.accumulator = some k) :
    (encode i).toNat = i.rowMatch.toNat + k.bit.toNat * 2 ^ 8 + i.reg.toNat := by
  obtain ⟨op, hnumber, hrow⟩ : ∃ op : BitVec 3, i.number = op ++ k.bit ∧
      i.rowMatch = i.format ++ (op ++ 0#1 : CopNum) ++ 0b0001#4 ++ 0#4 := by
    cases i <;> cases h <;> exact ⟨_, rfl, by simp [Instr.rowMatch, Instr.format]⟩
  have hop (fr : BitVec 1) : (op ++ fr : CopNum).toNat = op.toNat * 2 ^ 1 + fr.toNat := toNat_concat op fr
  rw [encode, hnumber, hrow, word_toNat, word_toNat, hop, hop]
  simp only [BitVec.toNat_ofNat]
  omega

/-! ### The next state, field by field -/

/-- The end of an instruction whose effect left `pc` and the counter alone. -/
theorem State.complete_eq {s t : State} (hpc : t.pc = s.pc) (hdraws : t.draws = s.draws) :
    t.complete = { t with pc := s.pc + 2#32, draws := s.draws + 1 } := by
  rw [State.complete, hpc, hdraws]

theorem State.fplowAfterCoset_long {s : State} (hl : s.long = true) :
    s.fplowAfterCoset = if s.params.fplowPreservedByCoset then s.fplow else Config.freeFplow s.draws := by
  simp [State.fplowAfterCoset, hl]

theorem State.fplowAfterCoset_short {s : State} (hl : s.long = false) : s.fplowAfterCoset = Config.freeFplow s.draws := by
  simp [State.fplowAfterCoset, hl]

/-- A value that leaves bit 1 of COSTAT set, or the parameter, keeps what the unit holds (R26; D13). -/
theorem State.writeCostat_of_kept {s : State} {v : Word}
    (h : (v &&& costatImplMask s.params).getLsbD 1 = true ∨ s.params.fpuStateSurvivesDisable = true) :
    s.writeCostat v = { s with costat := v &&& costatImplMask s.params } :=
  if_pos (Bool.or_eq_true_iff.mpr h)

/-- Otherwise what the unit held is lost: free values (R26 (b); D13). -/
theorem State.writeCostat_of_dropped {s : State} {v : Word} (hbit : (v &&& costatImplMask s.params).getLsbD 1 = false)
    (hparam : s.params.fpuStateSurvivesDisable = false) :
    s.writeCostat v =
      { s with
        costat := v &&& costatImplMask s.params
        fplow := Config.freeFplow s.draws
        fpa0 := Config.freeFpa0 s.draws
        fpa1 := Config.freeFpa1 s.draws } :=
  if_neg (by rw [hbit, hparam]; exact Bool.false_ne_true)

/-- Settles O26: the codes are the four drawn ones. -/
theorem cogetCostatResult : Obligations.CogetCostatResult := by
  intro s dst
  exact ⟨encode_toNat_of_fullMask rfl, congrArg _ (State.complete_eq (by simp) (by simp))⟩

/-- Settles O27: the two branches of the write of COSTAT. -/
theorem cosetCostatResult : Obligations.CosetCostatResult := by
  intro s src new
  refine ⟨encode_toNat_of_fullMask rfl, fun hkept => ?_, fun hbit hparam => ?_⟩
  · exact congrArg (fun t : State => Host.Outcome.next t.complete) (State.writeCostat_of_kept hkept)
  · exact congrArg (fun t : State => Host.Outcome.next t.complete) (State.writeCostat_of_dropped hbit hparam)

/-- Settles O30: the availability check, then the two modes. -/
theorem cogetFplowResult : Obligations.CogetFplowResult := by
  intro s dst drawn
  refine ⟨encode_toNat_of_fullMask rfl, s.ifAvailable_of_not_available _ _, fun ha hl => ?_, fun ha hl => ?_⟩
  · refine (s.ifAvailable_of_available _ _ ha).trans (congrArg _ ?_)
    rw [if_pos hl]
    exact State.complete_eq (by simp) (by simp)
  · refine (s.ifAvailable_of_available _ _ ha).trans (congrArg _ ?_)
    rw [if_neg (by simp [hl])]
    exact State.complete_eq (by simp) (by simp)

/-- Settles O31: the availability check, then the two modes. -/
theorem cosetFplowResult : Obligations.CosetFplowResult := by
  intro s src
  refine ⟨encode_toNat_of_fullMask rfl, s.ifAvailable_of_not_available _ _, fun ha hl => ?_, fun ha hl => ?_⟩
  · refine (s.ifAvailable_of_available _ _ ha).trans (congrArg _ ?_)
    rw [if_pos hl]
    rfl
  · refine (s.ifAvailable_of_available _ _ ha).trans (congrArg _ ?_)
    rw [if_neg (by simp [hl])]
    rfl

/-- COGET of an accumulator in short mode. -/
theorem exec_cogetFpa_short {s : State} (dst : RegNum) (k : Accumulator) (ha : s.available = true) (hl : s.long = false) :
    exec (.cogetFpa dst k) s = .next (s.deliverShort (narrow s.roundMode s.draws (s.fpa k)) dst).complete := by
  rw [← State.deliver_short s _ dst hl]
  exact State.ifAvailable_of_available s _ _ ha

/-- Settles O32: the availability check, then the delivery of a long and of a short number. -/
theorem cogetFpaResult : Obligations.CogetFpaResult := by
  intro s dst k
  refine ⟨encode_toNat_of_accumulator rfl, s.ifAvailable_of_not_available _ _, fun ha hl => ?_, fun ha hl => ?_⟩
  · exact (exec_cogetFpa_long dst k ha hl).trans (congrArg _ (State.complete_eq (by simp) (by simp)))
  · exact (exec_cogetFpa_short dst k ha hl).trans (congrArg _ (State.complete_eq (by simp) (by simp)))

/-- The next state of a load in long mode. -/
theorem State.loadFpa_complete_long {s : State} (k : Accumulator) (y : B64) (hl : s.long = true) :
    (s.loadFpa k y).complete =
      { s.setFpa k y with
        fplow := if s.params.fplowPreservedByCoset then s.fplow else Config.freeFplow s.draws
        pc := s.pc + 2#32
        draws := s.draws + 1 } := by
  rw [State.complete_eq (s.loadFpa_pc k y) (s.loadFpa_draws k y), State.loadFpa, State.fplowAfterCoset_long hl]

/-- The next state of a load in short mode. -/
theorem State.loadFpa_complete_short {s : State} (k : Accumulator) (y : B64) (hl : s.long = false) :
    (s.loadFpa k y).complete =
      { s.setFpa k y with fplow := Config.freeFplow s.draws, pc := s.pc + 2#32, draws := s.draws + 1 } := by
  rw [State.complete_eq (s.loadFpa_pc k y) (s.loadFpa_draws k y), State.loadFpa, State.fplowAfterCoset_short hl]

/-- Settles O36: the availability check, then the load of each mode's operand. -/
theorem cosetFpaResult : Obligations.CosetFpaResult := by
  intro s src k
  refine ⟨encode_toNat_of_accumulator rfl, s.ifAvailable_of_not_available _ _, fun ha hl => ?_, fun ha hl => ?_⟩
  · rw [exec_cosetFpa src k ha, State.loadFpa_complete_long k _ hl, State.operand_long s src hl]
  · rw [exec_cosetFpa src k ha, State.loadFpa_complete_short k _ hl, State.operand_short s src hl]

/-! ### The mode that COSTAT names -/

theorem State.available_congr {s t : State} (h : s.costat = t.costat) : s.available = t.available := by
  simp only [State.available, State.enabled, State.selected, h]

theorem State.long_congr {s t : State} (h : s.costat = t.costat) : s.long = t.long := by
  simp only [State.long, h]

/-- Bits 12, 10:8 and 1 of a value decide availability and mode after it is written to COSTAT, since they are storage under
every parameter; a value that leaves the unit enabled keeps the accumulators (R81; D13, D14). -/
theorem State.writeCostat_required {s : State} {v required : Word} (k : Accumulator) (h : v &&& 0x00001702#32 = required)
    (henabled : required.getLsbD 1 = true) (hselected : required.extractLsb' 8 3 = 0b001#3) :
    (s.writeCostat v).available = true ∧ (s.writeCostat v).long = required.getLsbD 12 ∧
      (s.writeCostat v).fpa k = s.fpa k := by
  have hnew : v &&& costatImplMask s.params &&& 0x00001702#32 = required := by
    rw [BitVec.and_assoc, costatImplMask_and_required, h]
  have hcostat := s.writeCostat_costat v
  have hkept := State.writeCostat_of_kept (s := s) (v := v)
  generalize v &&& costatImplMask s.params = new at *
  subst hnew
  have hbit : new.getLsbD 1 = true := by simpa using henabled
  refine ⟨?_, ?_, ?_⟩
  · have hsel : new.extractLsb' 8 3 = 0b001#3 := by
      rw [BitVec.extractLsb'_and, show (0x00001702#32).extractLsb' 8 3 = BitVec.allOnes 3 from rfl,
        BitVec.and_allOnes] at hselected
      exact hselected
    rw [State.available, State.enabled, State.selected, hcostat, hbit, hsel]
    rfl
  · rw [State.long, hcostat]
    simp
  · rw [hkept (.inl hbit)]
    cases k <;> rfl

/-! ### An operand that is a short number comes back from the accumulator -/

/-- Where a magnitude of the format lies: its significand `c`, scaled by the power of two `q` that `roundMagnitude` chooses. -/
theorem unitsOf_significand (mBits bits : Nat) :
    ∃ q c, unitsOf mBits bits = c * 2 ^ q ∧ q * 2 ^ mBits + c = bits ∧ Nat.log2 (unitsOf mBits bits) - mBits = q := by
  have hbits := Nat.div_add_mod bits (2 ^ mBits)
  have hr := Nat.mod_lt bits (Nat.two_pow_pos mBits)
  unfold unitsOf
  generalize bits / 2 ^ mBits = e at *
  generalize bits % 2 ^ mBits = r at *
  cases e with
  | zero =>
    refine ⟨0, r, by simp, by omega, ?_⟩
    have hlog : Nat.log2 r ≤ mBits := by
      by_cases hr0 : r = 0
      · simp [hr0]
      · exact ((Nat.log2_lt hr0).mpr hr).le
    simpa using Nat.sub_eq_zero_of_le hlog
  | succ q =>
    refine ⟨q, 2 ^ mBits + r, by simp, by rw [← hbits]; ring, ?_⟩
    have hlow : 2 ^ (mBits + q) ≤ (2 ^ mBits + r) * 2 ^ q := by
      rw [pow_add]
      exact Nat.mul_le_mul_right _ (Nat.le_add_right _ _)
    have hhigh : (2 ^ mBits + r) * 2 ^ q < 2 ^ (mBits + q + 1) := by
      rw [show mBits + q + 1 = mBits + 1 + q by omega, pow_add, pow_succ]
      exact Nat.mul_lt_mul_of_pos_right (by omega) (Nat.two_pow_pos q)
    have hlog : Nat.log2 ((2 ^ mBits + r) * 2 ^ q) = mBits + q :=
      (Nat.log2_eq_iff (by positivity)).mpr ⟨hlow, hhigh⟩
    simp [hlog]

/-- A magnitude of the format is not rounded, in any mode. -/
theorem roundMagnitude_unitsOf (m : RoundMode) (s : Bool) (mBits eBits bits : Nat) {d : Nat} (hd : 0 < d) :
    roundMagnitude m s mBits eBits (unitsOf mBits bits * d) d = min bits ((2 ^ eBits - 1) * 2 ^ mBits) := by
  obtain ⟨q, c, hunits, hbits, hlog⟩ := unitsOf_significand mBits bits
  have hD : 0 < d * 2 ^ q := Nat.mul_pos hd (Nat.two_pow_pos q)
  have hn : unitsOf mBits bits * d = c * (d * 2 ^ q) := by rw [hunits]; ring
  obtain ⟨hge, hle⟩ := roundWhole_between m s (c * (d * 2 ^ q)) (d * 2 ^ q) c hD
  have hwhole : roundWhole m s (c * (d * 2 ^ q)) (d * 2 ^ q) = c := le_antisymm (hle le_rfl) (hge le_rfl)
  simp only [roundMagnitude, Nat.mul_div_cancel _ hd, hlog]
  rw [hn, hwhole, hbits]

/-- A short number is the packing of its sign and the 31 bits below it. -/
theorem pack32_of_fields (x : B32) : pack32 (sign32 x) (x.toNat % 2 ^ 31) = x := by
  apply BitVec.eq_of_toNat_eq
  have hx := x.isLt
  rw [pack32_toNat, sign32_eq]
  by_cases h : 2 ^ 31 ≤ x.toNat
  · rw [decide_eq_true h, Bool.toNat_true]
    omega
  · rw [decide_eq_false h, Bool.toNat_false]
    omega

/-- A finite short number's own magnitude is rounded to that number. -/
theorem round32_magnitude32 (m : RoundMode) {x : B32} {d : Nat} (hd : 0 < d) (hx : isFinite32 x = true) :
    round32 m (sign32 x) (magnitude32 x * d) d = x := by
  rw [round32, magnitude32_eq_unitsOf, roundMagnitude_unitsOf m _ 23 8 _ hd,
    Nat.min_eq_left ((isFinite32_iff x).mp hx).le, pack32_of_fields]

/-- Narrowing undoes widening, in every mode, but for NaNs (R64, R65). -/
theorem narrow_widen (m : RoundMode) (t t' : Nat) {x : B32} (hx : isNaN32 x = false) : narrow m t' (widen t x) = x := by
  cases hfin : isFinite32 x with
  | true =>
    obtain ⟨hwfin, hsign, hmag⟩ := widen_of_finite t hfin
    rw [narrow_of_finite m t' hwfin, hsign, hmag, round32_magnitude32 m (Nat.two_pow_pos 925) hfin]
  | false =>
    have he : exponent32 x = 0xFF#8 := by simpa [isFinite32] using hfin
    have hm : mantissa32 x = 0#23 := by simpa [isNaN32, he] using hx
    have hwiden : widen t x = infinity64 (sign32 x) := by simp [widen, he, hm]
    have hnarrow : narrow m t' (infinity64 (sign32 x)) = infinity32 (sign32 x) := by simp [narrow]
    rw [hwiden, hnarrow]
    exact eq_of_fields32 _ _ (by simp) (by simp [he]) (by simp [hm])

/-! ### Two or three instructions together -/

/-- The destination register holds a delivered short number. -/
theorem State.deliverShort_readReg (s : State) (w : B32) {dst : RegNum} (hdst : dst ≠ 0#4) :
    (s.deliverShort w dst).readReg dst = w := by
  rw [State.readReg_congr _ _ dst (s.deliverShort_regs w dst), State.readReg_writeReg_same _ _ _ hdst]

/-- Settles O45: the accumulator holds the widened word, which narrows to the word itself. -/
theorem shortLoadThenReadIsExact : Obligations.ShortLoadThenReadIsExact := by
  intro s src dst k ha hl hdst hnan
  have hcostat : (s.loadFpa k (s.operand src)).complete.costat = s.costat := by simp
  refine ⟨_, _, exec_cosetFpa src k ha, exec_cogetFpa_short dst k ((State.available_congr hcostat).trans ha)
    ((State.long_congr hcostat).trans hl), ?_⟩
  rw [State.complete_readReg, State.deliverShort_readReg _ _ hdst, State.complete_fpa, State.loadFpa_fpa_same,
    State.operand_short s src hl, narrow_widen _ _ _ hnan]

/-- After a delivery in long mode the register and FPLOW hold the number's two words. -/
theorem State.deliverLong_words (s : State) (y : B64) {dst : RegNum} (hdst : dst ≠ 0#4) :
    (s.deliverLong y dst).readReg dst ++ (s.deliverLong y dst).fplow = y := by
  rw [s.deliverLong_readReg y hdst, s.deliverLong_fplow]
  exact BitVec.extractLsb'_append_extractLsb'

/-- Settles O44: the operand of the load is what the read delivered. -/
theorem longMoveBetweenAccumulators : Obligations.LongMoveBetweenAccumulators := by
  intro s r j k ha hl hr
  have hcostat : (s.deliverLong (s.fpa j) r).complete.costat = s.costat := by simp
  have hl' : (s.deliverLong (s.fpa j) r).complete.long = true := (State.long_congr hcostat).trans hl
  refine ⟨_, _, exec_cogetFpa_long r j ha hl, exec_cosetFpa r k ((State.available_congr hcostat).trans ha), ?_, ?_⟩
  · rw [State.complete_fpa, State.loadFpa_fpa_same, State.operand_long _ _ hl']
    exact s.deliverLong_words (s.fpa j) hr
  · intro hjk
    rw [State.complete_fpa, State.loadFpa_fpa_other _ _ _ _ hjk]
    exact State.fpa_congr _ _ j (by simp) (by simp)

/-- A load and then a write of COSTAT that leaves the unit available: the accumulator holds the operand of the load, and the mode
is the one written. -/
theorem load_then_writeCostat {s : State} {m : RegNum} {required : Word} (src : RegNum) (k : Accumulator)
    (ha : s.available = true) (h : s.readReg m &&& 0x00001702#32 = required) (henabled : required.getLsbD 1 = true)
    (hselected : required.extractLsb' 8 3 = 0b001#3) :
    ∃ t u, exec (.cosetFpa src k) s = .next t ∧ exec (.cosetCostat m) t = .next u ∧
      u.fpa k = t.fpa k ∧ u.fpa k = s.operand src ∧ u.available = true ∧ u.long = required.getLsbD 12 ∧
      u.draws = s.draws + 2 ∧ u.roundMode = s.roundMode := by
  have hread : (s.loadFpa k (s.operand src)).complete.readReg m = s.readReg m := State.readReg_congr _ _ m (by simp)
  have hoperand : (s.loadFpa k (s.operand src)).complete.fpa k = s.operand src := by simp
  obtain ⟨hava, hlong, hfpa⟩ := State.writeCostat_required (s := (s.loadFpa k (s.operand src)).complete) k h henabled hselected
  refine ⟨_, _, exec_cosetFpa src k ha, rfl, ?_⟩
  rw [hread]
  exact ⟨hfpa, hfpa.trans hoperand, hava, hlong, by simp, by simp [State.roundMode]⟩

/-- Settles O46: the read delivers the operand of the load in the mode that was written in between. -/
theorem formatConversionByMode : Obligations.FormatConversionByMode := by
  intro s src m dst k ha hdst
  refine ⟨fun hl hm => ?_, fun hl hm => ?_⟩
  · obtain ⟨t, u, ht, hu, hkept, hfpa, hava, hlong, -, -⟩ := load_then_writeCostat src k ha hm (by decide) (by decide)
    refine ⟨t, u, _, ht, hu, exec_cogetFpa_long dst k hava hlong, hkept, ?_⟩
    rw [State.complete_readReg, State.complete_fplow, u.deliverLong_words _ hdst, hfpa, State.operand_short s src hl]
  · obtain ⟨t, u, ht, hu, hkept, hfpa, hava, hlong, hdraws, hmode⟩ :=
      load_then_writeCostat src k ha hm (by decide) (by decide)
    refine ⟨t, u, _, ht, hu, exec_cogetFpa_short dst k hava hlong, hkept, ?_⟩
    rw [State.complete_readReg, State.deliverShort_readReg _ _ hdst, hfpa, hdraws, hmode, State.operand_long s src hl]

end Sys2Proof.Machine
end

section
/-! PROOFS. Family 42_coget_operations.md: negate and absolute value before and after narrowing, and the whole effect of COGET of
registers 4 to 15. -/

namespace Sys2Proof.Machine

open Config (RoundMode)

/-! ### The sign bit of a pattern -/

/-- Clearing the sign bit inverts it where it is set, and changes nothing where it is clear. -/
theorem clear_msb_eq_ite {w : Nat} (x : BitVec (w + 1)) :
    x &&& BitVec.cons false (BitVec.allOnes w) = if x.msb then x ^^^ BitVec.cons true 0#w else x := by
  rw [BitVec.msb_eq_getLsbD_last, Nat.add_sub_cancel]
  ext i hi
  rw [BitVec.getElem_and, BitVec.getElem_cons]
  by_cases htop : i = w
  · subst htop
    cases hsign : x.getLsbD i <;> simp [← BitVec.getLsbD_eq_getElem, hsign]
  · cases x.getLsbD w <;> simp [htop]

theorem absolute64_eq_ite (y : B64) : absolute64 y = if sign64 y then negate64 y else y := clear_msb_eq_ite y

theorem absolute32_eq_ite (x : B32) : absolute32 x = if sign32 x then x ^^^ 0x80000000#32 else x := clear_msb_eq_ite x

@[simp] theorem sign64_absolute64 (y : B64) : sign64 (absolute64 y) = false := by
  cases h : sign64 y <;> simp [absolute64_eq_ite, h]

@[simp] theorem sign32_absolute32 (x : B32) : sign32 (absolute32 x) = false := by
  simp [sign32, absolute32, show (0x7FFFFFFF#32).msb = false from rfl]

/-- A number without its sign has the magnitude as its value. -/
theorem value64_absolute64 (y : B64) : value64 (absolute64 y) = |value64 y| := by
  cases h : sign64 y with
  | false =>
    have hpos : 0 ≤ value64 y := by simp [value64, h]
    rw [absolute64_eq_ite, h, if_neg Bool.false_ne_true, abs_of_nonneg hpos]
  | true =>
    have hneg : value64 y ≤ 0 := by simp [value64, h]
    rw [absolute64_eq_ite, h, if_pos rfl, value64_negate64, abs_of_nonpos hneg]

/-! ### Narrowing a negated number -/

theorem pack32_not (s : Bool) (bits : Nat) : pack32 (!s) bits = pack32 s bits ^^^ 0x80000000#32 := by
  have hmask : (0x80000000#32 : B32) = BitVec.ofBool true ++ 0#31 := rfl
  rw [pack32, pack32, hmask, BitVec.xor_append, BitVec.xor_zero, BitVec.ofBool_xor_ofBool, Bool.xor_true]

/-- Only the two modes that round towards an infinity look at the sign (R66; log 7). -/
theorem roundMagnitude_not {m : RoundMode} (hpos : m ≠ .towardPositive) (hneg : m ≠ .towardNegative) (s : Bool)
    (mBits eBits n d : Nat) : roundMagnitude m (!s) mBits eBits n d = roundMagnitude m s mBits eBits n d := by
  cases m with
  | nearestEven | nearestAway | towardZero => rfl
  | towardPositive => exact absurd rfl hpos
  | towardNegative => exact absurd rfl hneg

theorem round32_not {m : RoundMode} (hpos : m ≠ .towardPositive) (hneg : m ≠ .towardNegative) (s : Bool) (n d : Nat) :
    round32 m (!s) n d = round32 m s n d ^^^ 0x80000000#32 := by
  rw [round32, round32, roundMagnitude_not hpos hneg, pack32_not]

theorem infinity32_not (s : Bool) : infinity32 (!s) = infinity32 s ^^^ 0x80000000#32 := by
  cases s <;> rfl

theorem narrow_of_isInf64 {y : B64} (m : RoundMode) (t : Nat) (h : isInf64 y = true) :
    narrow m t y = infinity32 (sign64 y) := by
  have hnan : isNaN64 y = false := by simp_all [isInf64, isNaN64]
  rw [narrow, if_neg (by simp [hnan]), if_pos h]

/-- A number that is not a NaN is an infinity or finite. -/
theorem isInf64_or_isFinite64 {y : B64} (h : isNaN64 y = false) : isInf64 y = true ∨ isFinite64 y = true := by
  by_cases he : exponent64 y = 0x7FF#11 <;> simp_all [isNaN64, isInf64, isFinite64]

/-- Narrowing keeps the sign (R65). -/
theorem sign32_narrow (m : RoundMode) (t : Nat) {y : B64} (h : isNaN64 y = false) : sign32 (narrow m t y) = sign64 y := by
  rcases isInf64_or_isFinite64 h with hinf | hfin
  · rw [narrow_of_isInf64 m t hinf, sign32_infinity32]
  · rw [narrow_of_finite m t hfin, (round32_spec m _ _ _).1]

/-- Negating commutes with narrowing in the modes that do not look at the sign (R93; log 7). -/
theorem narrow_negate64 {m : RoundMode} (t : Nat) {y : B64} (h : isNaN64 y = false) (hpos : m ≠ .towardPositive)
    (hneg : m ≠ .towardNegative) : narrow m t (negate64 y) = narrow m t y ^^^ 0x80000000#32 := by
  rcases isInf64_or_isFinite64 h with hinf | hfin
  · rw [narrow_of_isInf64 m t hinf, narrow_of_isInf64 m t (by rwa [isInf64_negate64]), sign64_negate64, infinity32_not]
  · rw [narrow_of_finite m t hfin, narrow_of_finite m t (by rwa [isFinite64_negate64]), sign64_negate64,
      magnitude64_negate64, round32_not hpos hneg]

/-- Narrowing keeps the sign, so the absolute value negates before narrowing where it negates after (R93). -/
theorem narrow_absolute64 {m : RoundMode} (t : Nat) {y : B64} (h : isNaN64 y = false) (hpos : m ≠ .towardPositive)
    (hneg : m ≠ .towardNegative) : narrow m t (absolute64 y) = absolute32 (narrow m t y) := by
  rw [absolute64_eq_ite, absolute32_eq_ite, sign32_narrow m t h]
  split
  · exact narrow_negate64 t h hpos hneg
  · rfl

/-- Settles O53: the infinities and the finite numbers in turn, and the values by the sign. -/
theorem signOperations : Obligations.SignOperations := fun _ t y =>
  ⟨fun h hpos hneg => ⟨narrow_negate64 t h hpos hneg, narrow_absolute64 t h hpos hneg⟩, value64_negate64 y,
    value64_absolute64 y⟩

/-! ### The whole effect of the COGET operations -/

/-- The next state of a delivery in long mode. -/
theorem State.deliverLong_complete (s : State) (y : B64) (dst : RegNum) :
    (s.deliverLong y dst).complete =
      { s.writeReg dst (y.extractLsb' 32 32) with
        fplow := y.extractLsb' 0 32
        cc := fpCcLong (y.extractLsb' 32 32) (y.extractLsb' 0 32)
        pc := s.pc + 2#32
        draws := s.draws + 1 } :=
  State.complete_eq (s.deliverLong_pc y dst) (s.deliverLong_draws y dst)

/-- The next state of a delivery in short mode. -/
theorem State.deliverShort_complete (s : State) (w : B32) (dst : RegNum) :
    (s.deliverShort w dst).complete =
      { s.writeReg dst w with
        fplow := Config.freeFplow s.draws
        cc := fpCcShort w
        pc := s.pc + 2#32
        draws := s.draws + 1 } :=
  State.complete_eq (s.deliverShort_pc w dst) (s.deliverShort_draws w dst)

/-- COGET of a negated accumulator. -/
theorem exec_cogetFpneg {s : State} (dst : RegNum) (k : Accumulator) (ha : s.available = true) :
    exec (.cogetFpneg dst k) s = .next (s.deliver (negate64 (s.fpa k)) dst).complete :=
  s.ifAvailable_of_available _ _ ha

/-- Settles O33: the availability check, then the delivery of the negated number, long or narrowed. -/
theorem cogetFpnegResult : Obligations.CogetFpnegResult := by
  intro s dst k y
  refine ⟨encode_toNat_of_accumulator rfl, s.ifAvailable_of_not_available _ _, fun ha hl => ?_, fun ha hl => ?_⟩
  · rw [exec_cogetFpneg dst k ha, State.deliver_long _ _ _ hl, State.deliverLong_complete, negate64]
  · rw [exec_cogetFpneg dst k ha, State.deliver_short _ _ _ hl, State.deliverShort_complete, negate64]

/-- COGET of an accumulator's absolute value. In short mode the narrowed word loses its sign too, which a drawn NaN may have. -/
theorem exec_cogetFpabs {s : State} (dst : RegNum) (k : Accumulator) (ha : s.available = true) :
    exec (.cogetFpabs dst k) s = .next (State.complete
      (if s.long then s.deliverLong (absolute64 (s.fpa k)) dst
      else s.deliverShort (absolute32 (narrow s.roundMode s.draws (absolute64 (s.fpa k)))) dst)) :=
  s.ifAvailable_of_available _ _ ha

/-- Settles O34: the availability check, then the delivery of the number without its sign; N is the delivered sign. -/
theorem cogetFpabsResult : Obligations.CogetFpabsResult := by
  intro s dst k y w
  refine ⟨encode_toNat_of_accumulator rfl, s.ifAvailable_of_not_available _ _, fun ha hl => ?_, fun ha hl => ?_, ?_, ?_⟩
  · rw [exec_cogetFpabs dst k ha, if_pos hl, State.deliverLong_complete, absolute64]
  · rw [exec_cogetFpabs dst k ha, if_neg (by simp [hl]), State.deliverShort_complete, absolute32, absolute64]
  · rw [codesReportDeliveredNumber.1]
    exact sign64_absolute64 (s.fpa k)
  · rw [codesReportDeliveredNumber.2]
    exact sign32_absolute32 _

/-- Settles O35: the availability check comes before the undefined operation's stop. -/
theorem cogetUndefinedStops : Obligations.CogetUndefinedStops := fun s _ _ =>
  ⟨s.ifAvailable_of_not_available _ _, s.ifAvailable_of_available _ _⟩

end Sys2Proof.Machine
end

section
/-! PROOFS. Family 43_coset_operations.md: the whole effect of the COSET operations, and which operand is which. -/

namespace Sys2Proof.Machine

/-! ### What the COSET operations share (R106) -/

/-- `i` is an operation on `FPA[k]` that in state `s` has the result `y`: behind the availability check it stores `y`, and does
nothing else. -/
def StoresResult (i : Instr) (k : Accumulator) (s : State) (y : B64) : Prop :=
  exec i s = s.ifAvailable i (.next (s.storeResult k y).complete)

section Operations
variable (src : RegNum) (k : Accumulator) (s : State)

theorem storesResult_cosetFpint : StoresResult (.cosetFpint src k) k s (intToB64 s.roundMode (s.operandInt src)) := rfl

theorem storesResult_cosetFpsqrt : StoresResult (.cosetFpsqrt src k) k s (fsqrt s.roundMode s.draws (s.operand src)) := rfl

theorem storesResult_cosetFpadd :
    StoresResult (.cosetFpadd src k) k s (fadd s.roundMode s.draws (s.fpa k) (s.operand src)) := rfl

theorem storesResult_cosetFpsub :
    StoresResult (.cosetFpsub src k) k s (fsub s.roundMode s.draws (s.fpa k) (s.operand src)) := rfl

theorem storesResult_cosetFpmul :
    StoresResult (.cosetFpmul src k) k s (fmul s.roundMode s.draws (s.fpa k) (s.operand src)) := rfl

theorem storesResult_cosetFpdiv :
    StoresResult (.cosetFpdiv src k) k s (fdiv s.roundMode s.draws (s.fpa k) (s.operand src)) := rfl

end Operations

theorem StoresResult.exec_of_available {i : Instr} {k : Accumulator} {s : State} {y : B64} (h : StoresResult i k s y)
    (ha : s.available = true) : exec i s = .next (s.storeResult k y).complete :=
  Eq.trans h (s.ifAvailable_of_available i _ ha)

theorem StoresResult.exec_of_not_available {i : Instr} {k : Accumulator} {s : State} {y : B64} (h : StoresResult i k s y)
    (ha : s.available = false) : exec i s = .fault (.coprocessorUnavailable (encode i) s.costat) :=
  Eq.trans h (s.ifAvailable_of_not_available i _ ha)

/-! ### The result in the accumulator -/

/-- A short-mode result is rounded to short where the parameter says so (R75; D2). -/
theorem State.kept_short (s : State) (y : B64) (hl : s.long = false) :
    s.kept y = if s.params.shortRoundsAccumulator then shortRounded s.roundMode s.draws y else y := by
  simp [State.kept, hl]

/-- The next state of an operation in long mode. -/
theorem State.storeResult_complete_long {s : State} (k : Accumulator) (y : B64) (hl : s.long = true) :
    (s.storeResult k y).complete =
      { s.setFpa k y with
        fplow := if s.params.fplowPreservedByCoset then s.fplow else Config.freeFplow s.draws
        pc := s.pc + 2#32
        draws := s.draws + 1 } := by
  rw [s.storeResult_eq, s.kept_long y hl, State.loadFpa_complete_long k y hl]

/-- The next state of an operation in short mode. -/
theorem State.storeResult_complete_short {s : State} (k : Accumulator) (y : B64) (hl : s.long = false) :
    (s.storeResult k y).complete =
      { s.setFpa k (if s.params.shortRoundsAccumulator then shortRounded s.roundMode s.draws y else y) with
        fplow := Config.freeFplow s.draws
        pc := s.pc + 2#32
        draws := s.draws + 1 } := by
  rw [s.storeResult_eq, s.kept_short y hl, State.loadFpa_complete_short k _ hl]

theorem State.operandInt_long (s : State) (src : RegNum) (hl : s.long = true) :
    s.operandInt src = (s.readReg src ++ s.fplow : BitVec 64).toInt := if_pos hl

theorem State.operandInt_short (s : State) (src : RegNum) (hl : s.long = false) :
    s.operandInt src = (s.readReg src).toInt := if_neg (by simp [hl])

/-! ### The whole effect -/

/-- The shape of R100 to R105: the word of `i`, its only fault, and its next state when its result, before a short-mode
rounding, is `long` in long mode and `short` in short mode. -/
def OperationEffect (i : Instr) (k : Accumulator) (s : State) (long short : B64) : Prop :=
  (encode i).toNat = i.rowMatch.toNat + k.bit.toNat * 2 ^ 8 + i.reg.toNat ∧
  (s.available = false → exec i s = .fault (.coprocessorUnavailable (encode i) s.costat)) ∧
  (s.available = true → s.long = true →
    exec i s = .next
      { s.setFpa k long with
        fplow := if s.params.fplowPreservedByCoset then s.fplow else Config.freeFplow s.draws
        pc := s.pc + 2#32
        draws := s.draws + 1 }) ∧
  (s.available = true → s.long = false →
    exec i s = .next
      { s.setFpa k (if s.params.shortRoundsAccumulator then shortRounded s.roundMode s.draws short else short) with
        fplow := Config.freeFplow s.draws
        pc := s.pc + 2#32
        draws := s.draws + 1 })

theorem StoresResult.effect {i : Instr} {k : Accumulator} {s : State} {y long short : B64} (h : StoresResult i k s y)
    (hnames : i.accumulator = some k) (hlong : s.long = true → y = long) (hshort : s.long = false → y = short) :
    OperationEffect i k s long short := by
  refine ⟨encode_toNat_of_accumulator hnames, h.exec_of_not_available, fun ha hl => ?_, fun ha hl => ?_⟩
  · rw [h.exec_of_available ha, State.storeResult_complete_long k y hl, hlong hl]
  · rw [h.exec_of_available ha, State.storeResult_complete_short k y hl, hshort hl]

/-- The effect of an operation that computes `f` of the floating operand: the 64 bits in long mode, the widened word in short
mode (R73). -/
theorem StoresResult.effect_of_operand {i : Instr} {k : Accumulator} {s : State} {src : RegNum} (f : B64 → B64)
    (h : StoresResult i k s (f (s.operand src))) (hnames : i.accumulator = some k) :
    OperationEffect i k s (f (s.readReg src ++ s.fplow)) (f (widen s.draws (s.readReg src))) :=
  h.effect hnames (fun hl => congrArg f (s.operand_long src hl)) (fun hl => congrArg f (s.operand_short src hl))

/-- Settles O37: the integer operand of each mode. -/
theorem cosetFpintResult : Obligations.CosetFpintResult := fun s src k =>
  (storesResult_cosetFpint src k s).effect rfl (fun hl => congrArg (intToB64 s.roundMode) (s.operandInt_long src hl))
    (fun hl => congrArg (intToB64 s.roundMode) (s.operandInt_short src hl))

/-- Settles O38: the function of the operand is the square root. -/
theorem cosetFpsqrtResult : Obligations.CosetFpsqrtResult := fun s src k =>
  (storesResult_cosetFpsqrt src k s).effect_of_operand (fsqrt s.roundMode s.draws) rfl

/-- Settles O39: the function of the operand is the sum with the accumulator on its left. -/
theorem cosetFpaddResult : Obligations.CosetFpaddResult := fun s src k =>
  (storesResult_cosetFpadd src k s).effect_of_operand (fadd s.roundMode s.draws (s.fpa k)) rfl

/-- Settles O40: the function of the operand is the difference with the accumulator on its left. -/
theorem cosetFpsubResult : Obligations.CosetFpsubResult := fun s src k =>
  (storesResult_cosetFpsub src k s).effect_of_operand (fsub s.roundMode s.draws (s.fpa k)) rfl

/-- Settles O41: the function of the operand is the product with the accumulator on its left. -/
theorem cosetFpmulResult : Obligations.CosetFpmulResult := fun s src k =>
  (storesResult_cosetFpmul src k s).effect_of_operand (fmul s.roundMode s.draws (s.fpa k)) rfl

/-- Settles O42: the function of the operand is the quotient with the accumulator on its left. -/
theorem cosetFpdivResult : Obligations.CosetFpdivResult := fun s src k =>
  (storesResult_cosetFpdiv src k s).effect_of_operand (fdiv s.roundMode s.draws (s.fpa k)) rfl

/-! ### Which operand is which (R107) -/

/-- An operation whose result is stored without a further rounding leaves exactly that result in its accumulator. -/
theorem StoresResult.exists_next_fpa {i : Instr} {k : Accumulator} {s : State} {y : B64} (h : StoresResult i k s y)
    (ha : s.available = true) (hkept : s.kept y = y) : ∃ t, exec i s = .next t ∧ t.fpa k = y := by
  refine ⟨_, h.exec_of_available ha, ?_⟩
  rw [State.complete_fpa, s.storeResult_eq, State.loadFpa_fpa_same, hkept]

/-- Long mode never rounds a result further, and short mode does not under the parameter's default (R75; D2). -/
theorem State.kept_of_long_or_default {s : State} (h : s.long = true ∨ s.params.shortRoundsAccumulator = false) (y : B64) :
    s.kept y = y :=
  h.elim (s.kept_long y) (s.kept_default y)

/-- A stored result replaces the accumulator, so nothing of what it held before is left. -/
@[simp] theorem State.setFpa_same_storeResult (s : State) (k : Accumulator) (y z : B64) :
    (s.setFpa k y).storeResult k z = s.storeResult k z := by
  rw [State.storeResult_eq, State.storeResult_eq, State.setFpa_kept]
  cases k <;> rfl

/-- An operation with the same result whatever its accumulator holds does the same whatever it holds. -/
theorem StoresResult.exec_setFpa {i : Instr} {k : Accumulator} {s : State} {y z : B64} (h : StoresResult i k s z)
    (hset : StoresResult i k (s.setFpa k y) z) : exec i (s.setFpa k y) = exec i s :=
  calc exec i (s.setFpa k y)
    _ = (s.setFpa k y).ifAvailable i (.next ((s.setFpa k y).storeResult k z).complete) := hset
    _ = s.ifAvailable i (.next (s.storeResult k z).complete) := by
      rw [State.setFpa_ifAvailable, State.setFpa_same_storeResult]
    _ = exec i s := h.symm

/-- Settles O25: the four results are stored as they are, and the operands of FPINT and FPSQRT are not read from the
accumulator. -/
theorem whichOperandIsWhich : Obligations.WhichOperandIsWhich := by
  intro s src k ha
  refine ⟨fun hmode => ?_, fun y => ?_, fun y => ?_⟩
  · have hkept := State.kept_of_long_or_default hmode
    exact ⟨(storesResult_cosetFpadd src k s).exists_next_fpa ha (hkept _),
      (storesResult_cosetFpsub src k s).exists_next_fpa ha (hkept _),
      (storesResult_cosetFpmul src k s).exists_next_fpa ha (hkept _),
      (storesResult_cosetFpdiv src k s).exists_next_fpa ha (hkept _)⟩
  · have hset := storesResult_cosetFpint src k (s.setFpa k y)
    rw [State.setFpa_operandInt, State.setFpa_roundMode] at hset
    exact (storesResult_cosetFpint src k s).exec_setFpa hset
  · have hset := storesResult_cosetFpsqrt src k (s.setFpa k y)
    rw [State.setFpa_operand, State.setFpa_roundMode, State.setFpa_draws] at hset
    exact (storesResult_cosetFpsqrt src k s).exec_setFpa hset

end Sys2Proof.Machine
end

section
/-! PROOFS. Family 60_exceptions.md: the words that a step refuses. -/

namespace Sys2Proof.Machine

/-- A word outside both masks is refused by its own name (R137; D24). -/
theorem step_of_otherMask {s : State} {w : InstrWord} (hfetch : s.fetchWord = .ok w)
    (h3 : w &&& 0xF0F0#16 ≠ 0x3010#16) (h2 : w &&& 0xF0F0#16 ≠ 0x2010#16) :
    step s = .refused (.notACoprocessorInstruction w) := by
  simp only [step, hfetch, decodeWord_of_otherMask h3 h2]

/-- A word that decodes is never refused: what decodes is well-formed, and no well-formed instruction refuses. -/
theorem step_ne_refused_of_decodeWord {s : State} {w : InstrWord} {i : Instr} (hfetch : s.fetchWord = .ok w)
    (hdecode : decodeWord w = .ok i) (r : Refusal) : step s ≠ .refused r := by
  obtain ⟨-, hwf⟩ := encodeOfDecode w i hdecode
  rw [step_of_fetchWord hfetch hdecode]
  exact (execStopsExactly i s hwf).1 r

/-- Settles O12: a refusing step has fetched a word, and under either mask of R44 that word would decode. -/
theorem stepRefusesExactlyOtherWords : Obligations.StepRefusesExactlyOtherWords := by
  intro s r
  constructor
  · intro hstep
    cases hfetch : s.fetchWord with
    | error f =>
      rw [step_of_fetchWord_error hfetch] at hstep
      cases hstep
    | ok w =>
      have h3 : w &&& 0xF0F0#16 ≠ 0x3010#16 := fun hmask =>
        step_ne_refused_of_decodeWord hfetch (decodeWord_of_cogetMask hmask).2 r hstep
      have h2 : w &&& 0xF0F0#16 ≠ 0x2010#16 := fun hmask =>
        step_ne_refused_of_decodeWord hfetch (decodeWord_of_cosetMask hmask).2 r hstep
      rw [step_of_otherMask hfetch h3 h2] at hstep
      cases hstep
      exact ⟨w, rfl, h3, h2, rfl⟩
  · rintro ⟨w, hfetch, h3, h2, rfl⟩
    exact step_of_otherMask hfetch h3 h2

end Sys2Proof.Machine
end
